-- ==== Sys2Proof/Word.lean ====
section
/-! DEFINITION. The value types of the block: bytes, 32-bit words (R8: WORD_BYTES = 4, ADDR_BITS = DATA_BITS = 32)
and byte strings of a fixed length (R9: the byte at the lowest address first). -/

namespace Sys2Proof

/-- One byte of a buffer, a key slot or a secret. -/
abbrev Byte := BitVec 8

/-- A 32-bit register word, data value or address (R8, R50). -/
abbrev Word := BitVec 32

/-- A byte string of `n` bytes, in address order (R9). -/
abbrev Bytes (n : Nat) := Vector Byte n

/-- A key-vault slot: KV_SLOT_BYTES = 64 (R8, R35; 90_conflicts.md C1). -/
abbrev KeySlot := Bytes 64

/-- `0^n`: n zero bytes (R9). -/
def zeros (n : Nat) : Bytes n := Vector.replicate n 0

end Sys2Proof
end

