-- ==== Sys2Proof/Config.lean ====
section
/-! DEFINITION. What an instance of the block fixes at construction (R8, R40) and the model's free values.
The configuration is plain data and State carries it, so that every statement about every state is a statement
about every configuration (assumption 6). The free values are opaque constants with no body. -/

namespace Sys2Proof

/-- IV_BYTE_ORDER (R8, R56, D6). -/
inductive ByteOrder where
  | le
  | be
  deriving DecidableEq, Repr

/-- The two kinds of bus fault (R210). -/
inductive BusFaultKind where
  | access
  | misaligned
  deriving DecidableEq, Repr

/-- The handler pair a region dispatches to (R51, R127): the two regions of the DOE at DOE_BASE (R53), those of further DOE
number `j` (R224), or region `region` of another peripheral, number `p`, whose handlers are parameters (R134). -/
inductive Handler where
  | doeIv
  | doeControl
  | furtherIv (j : Nat)
  | furtherControl (j : Nat)
  | peripheral (p region : Nat)
  deriving DecidableEq, Repr

/-- A region record `{base, len, gran, handler}` (R51). -/
structure Region where
  base    : Nat
  len     : Nat
  gran    : Nat
  handler : Handler
  deriving DecidableEq, Repr

/-- An entry of POLL_ORDER (R8, R69, R120): the DOE at DOE_BASE, a further DOE (R224), or another poll-capable
peripheral. -/
inductive Poller where
  | doe
  | furtherDoe (j : Nat)
  | peripheral (p : Nat)
  deriving DecidableEq, Repr

/-- The three arguments of one cipher call (R194). -/
structure CipherCall where
  key : Bytes 32
  iv  : Bytes 16
  ct  : List Byte
  deriving DecidableEq, Repr

/-- The configuration of R8 and R40. `cipherFailures` lists the calls on which AES256_CBC_DEC answers `none` (R186, R194);
KV_SLOTS is the number of slots the vault is built with, held by the vault itself (assumption 7). `furtherBases` are the
addresses of the further DOEs on the bus (R224; assumption 28). -/
structure Config where
  doeBase           : Word
  furtherBases      : List Word
  ivByteOrder       : ByteOrder
  sizeMismatchFault : BusFaultKind
  otherRegions      : List Region
  pollOrder         : List Poller
  cipherFailures    : List CipherCall
  deriving DecidableEq, Repr

/-- The spec's defaults (R8, 95_test_vectors.md "Conventions"). DESIGN CHOICE: DOE_BASE = 0, no further DOE and no other
peripheral (assumptions 9, 12 and 28). -/
def Config.default : Config :=
  { doeBase := 0, furtherBases := [], ivByteOrder := .le, sizeMismatchFault := .misaligned, otherRegions := [],
    pollOrder := [.doe], cipherFailures := [] }

/-- What one DOE owns: its IV buffer, its CONTROL register and its timer slot (R170, R224). -/
structure DoeUnit where
  iv      : Bytes 16
  control : Word
  pending : Option Nat
  deriving DecidableEq, Repr

/-- What the handlers and the poll hook of another peripheral may depend on: all the state they could see (R74, R134). -/
structure MachineView where
  now         : Nat
  iv          : Bytes 16
  control     : Word
  pending     : Option Nat
  kv          : List KeySlot
  uds         : Bytes 48
  fe          : Bytes 64
  doekey      : Bytes 32
  further     : List DoeUnit
  peripherals : List Nat
  deriving DecidableEq, Repr

/-- FREE VALUE. The plaintext the cipher primitive returns where it does not fail: it depends on its three arguments
only, and on 16·m bytes it returns 16·m bytes (R194, D24; assumption 8). -/
opaque Config.aes256CbcPlaintext (m : Nat) (key : Bytes 32) (iv : Bytes 16) (ct : Bytes (16 * m)) : Bytes (16 * m)

/-- FREE VALUE. The AES-256 block decryption the named property of R194 speaks of; the machine never calls it (assumption 31). -/
opaque Config.aes256BlockDecrypt (key : Bytes 32) (block : Bytes 16) : Bytes 16

/-- FREE VALUE. What region `region` of peripheral `p` returns on a read at `off` (R134; assumption 13). -/
opaque Config.peripheralRead (p region off : Nat) (view : MachineView) : Word

/-- FREE VALUE. The internal state of peripheral `p` after a write of `v` at `off` of its region (R134; assumption 13). -/
opaque Config.peripheralWrite (p region off : Nat) (v : Word) (view : MachineView) : Nat

/-- FREE VALUE. The internal state of peripheral `p` after its poll hook ran (R134; assumption 13). -/
opaque Config.peripheralPoll (p : Nat) (view : MachineView) : Nat

end Sys2Proof
end

