-- ==== Sys2Proof/Machine/Regions.lean ====
section
/-! DEFINITION. Regions and the bus region table (R51 to R54, R120). -/

namespace Sys2Proof.Machine

/-- A region owns address `a` iff base ≤ a < base + len (R51). -/
def owns (r : Region) (a : Nat) : Bool := decide (r.base ≤ a) && decide (a < r.base + r.len)

/-- `access_mask = len - 1`, for a region of power-of-two length (R54, D13). -/
def accessMask (r : Region) : Nat := r.len - 1

/-- Two regions have an address in common (R52). -/
def overlap (r q : Region) : Bool := decide (r.base < q.base + q.len) && decide (q.base < r.base + r.len)

/-- The two regions a DOE at `base` declares (R53). -/
def doeRegionsAt (base : Word) (iv control : Handler) : List Region :=
  [{ base := base.toNat, len := 0x10, gran := 4, handler := iv },
   { base := base.toNat + 0x10, len := 4, gran := 4, handler := control }]

/-- The regions of the DOE at DOE_BASE (R53). -/
def doeRegions (cfg : Config) : List Region := doeRegionsAt cfg.doeBase .doeIv .doeControl

/-- The regions of the further DOEs, numbered from `j` on (R53, R224). -/
def furtherRegions (j : Nat) : List Word → List Region
  | [] => []
  | base :: bases => doeRegionsAt base (.furtherIv j) (.furtherControl j) ++ furtherRegions (j + 1) bases

/-- The bus region table: every region of every registered peripheral (R51, R120; assumption 14). -/
def regionTable (cfg : Config) : List Region :=
  doeRegions cfg ++ (furtherRegions 0 cfg.furtherBases ++ cfg.otherRegions)

/-- The owner of an address, if there is one (R51, R122). -/
def owner (cfg : Config) (addr : Word) : Option Region := (regionTable cfg).find? fun r => owns r addr.toNat

end Sys2Proof.Machine
end

