-- ==== Sys2Proof/Syntax.lean ====
section
/-! DEFINITION. The syntax: the block's instructions (one constructor per row of spec/opcode_table.json, R91), the driver's
operations and requests with their encoding (R80 to R94), and the register file's fields and layouts (R150, R151). -/

namespace Sys2Proof

/-- The four commands of CONTROL.CMD (R27, R87). -/
inductive Cmd where
  | idle
  | deobfuscateUds
  | deobfuscateFe
  | clearSecrets
  deriving DecidableEq, Repr

/-- The two access kinds of the bus (R60, R120). -/
inductive AccessKind where
  | read
  | write
  deriving DecidableEq, Repr

/-- The access sizes SZ names (R83): 1, 2 or 4 bytes, or any other size, which is invalid (R123). -/
inductive AccessSize where
  | byte
  | half
  | word
  | invalid
  deriving DecidableEq, Repr

/-- One constructor per row of spec/opcode_table.json. The first five are the T-format rows (driver requests that reach
the DOE or the clock). The last four are the CTRL-format rows: the commands the DOE performs at fire, with the other fields
of the CONTROL word that selects them (R86). Operands have the width of their field, so every term is well-formed. -/
inductive Instr where
  | readIv (k : BitVec 2)
  | readControl
  | writeIv (k : BitVec 2) (data : Word)
  | writeControl (data : Word)
  | advance (n : Nat)
  | idle (dest : BitVec 3) (flowDone : Bool) (rsv : BitVec 26)
  | deobfuscateUds (dest : BitVec 3) (flowDone : Bool) (rsv : BitVec 26)
  | deobfuscateFe (dest : BitVec 3) (flowDone : Bool) (rsv : BitVec 26)
  | clearSecrets (dest : BitVec 3) (flowDone : Bool) (rsv : BitVec 26)
  deriving DecidableEq, Repr

/-- The driver's three operations (R6, R82), with OFF relative to DOE_BASE (R84). -/
inductive Operation where
  | read (size : AccessSize) (off : Word)
  | write (size : AccessSize) (off : Word) (data : Word)
  | advance (n : Nat)
  deriving DecidableEq, Repr

/-- A 36-bit transaction key: OP[35:34], SZ[33:32], OFF[31:0] (R81). -/
abbrev Key := BitVec 36

/-- What a request carries beside its key (R85). -/
inductive Payload where
  | none
  | data (v : Word)
  | ticks (n : Nat)
  deriving DecidableEq, Repr

/-- What the driver may hand to the block: a transaction (R81, R85), or an instruction fetch, which the block does not
serve and the model refuses (R60, D19). -/
inductive Request where
  | transaction (key : Key) (payload : Payload)
  | fetch (addr : Word)
  deriving DecidableEq, Repr

/-- An encoded instruction: a request of format T or a CONTROL word of format CTRL (R80). -/
inductive Encoded where
  | transaction (key : Key) (payload : Payload)
  | control (w : Word)
  deriving DecidableEq, Repr

/-- A field `{name, off, w, legal?}` of a register, with member names of type `M` (R151). -/
structure RegField (M : Type) where
  name  : String
  off   : Nat
  width : Nat
  legal : Option (List (M × Nat))
  deriving DecidableEq, Repr

/-- The field layout of a register (R150). -/
abbrev Layout (M : Type) := List (RegField M)

/-- A register `{raw, field_layout}` (R150). -/
structure Register (M : Type) where
  raw    : Word
  layout : Layout M
  deriving DecidableEq, Repr

end Sys2Proof
end

