-- ==== Sys2Proof/WellFormed.lean ====
section
/-! DEFINITION. What counts as a well-formed request, field layout, region table and configuration. Instructions need no
check: each operand has the width of its field (Syntax.lean). -/

namespace Sys2Proof

/-- A request the hardware can express (R91, R92, R94): OP is not `11`, ADVANCE has SZ = OFF = 0, and the payload is the
one OP determines. A fetch is none (R60). -/
def Request.wf : Request → Bool
  | .transaction key (.data _) => key.extractLsb' 34 2 == 1
  | .transaction key .none => key.extractLsb' 34 2 == 0
  | .transaction key (.ticks _) => key == 0x800000000
  | .fetch _ => false

/-- Two fields share a bit (R151). -/
def RegField.overlap {M : Type} (f g : RegField M) : Bool :=
  decide (f.off < g.off + g.width) && decide (g.off < f.off + f.width)

/-- `w ≥ 1`, `off + w ≤ 32`, and the legal values are a map from distinct names to distinct patterns below `2^w` (R151). -/
def RegField.wf {M : Type} [DecidableEq M] (f : RegField M) : Bool :=
  decide (1 ≤ f.width) && decide (f.off + f.width ≤ 32) &&
    match f.legal with
    | none => true
    | some l => decide (l.map (·.1)).Nodup && decide (l.map (·.2)).Nodup && l.all fun p => decide (p.2 < 2 ^ f.width)

/-- No two fields of the list share a bit. -/
def Layout.disjoint {M : Type} : List (RegField M) → Bool
  | [] => true
  | f :: fs => fs.all (fun g => !f.overlap g) && Layout.disjoint fs

/-- A well-formed layout (R151). -/
def Layout.wf {M : Type} [DecidableEq M] (l : Layout M) : Bool := l.all (·.wf) && Layout.disjoint l

/-- A register whose layout the model accepts; an ill-formed layout is refused (R151). -/
def Register.make {M : Type} [DecidableEq M] (raw : Word) (l : Layout M) : Option (Register M) :=
  if Layout.wf l then some ⟨raw, l⟩ else none

/-- A region inside the address space, with a legal granularity and a base aligned to it (R50, R51, R61, R124).
DESIGN CHOICE: a region of length 0, which would own no address, is ill-formed (assumption 38). -/
def Region.wf (r : Region) : Bool :=
  decide (1 ≤ r.len) && decide (r.base + r.len ≤ 2 ^ 32) && [1, 2, 4].contains r.gran && r.base % r.gran == 0

/-- No two regions of the list overlap (R52). -/
def Region.disjoint : List Region → Bool
  | [] => true
  | r :: rs => rs.all (fun q => !Machine.overlap r q) && Region.disjoint rs

/-- A region of another peripheral dispatches to one of that peripheral's handlers, and that peripheral exists. -/
def Region.isOther (nPeripherals : Nat) (r : Region) : Bool :=
  match r.handler with
  | .peripheral p _ => decide (p < nPeripherals)
  | _ => false

/-- A poller that exists, among `nFurther` further DOEs and `nPeripherals` other peripherals. -/
def Poller.isKnown (nFurther nPeripherals : Nat) : Poller → Bool
  | .doe => true
  | .furtherDoe j => decide (j < nFurther)
  | .peripheral p => decide (p < nPeripherals)

/-- A base address a DOE may have: a multiple of 4 with base + 0x14 ≤ 2^32 (R8, R66). -/
def doeBaseOk (base : Word) : Bool := base.toNat % 4 == 0 && decide (base.toNat + 0x14 ≤ 2 ^ 32)

/-- A configuration the model accepts, for `nPeripherals` other peripherals: every DOE has a legal base (R8, R66), every
region is well-formed, no two overlap (R52), and POLL_ORDER names each poller at most once and none that does not exist
(R69, R102, R120). DESIGN CHOICE: a POLL_ORDER that leaves a poller out, a DOE included, is accepted (assumption 37). -/
def Config.wf (nPeripherals : Nat) (cfg : Config) : Bool :=
  doeBaseOk cfg.doeBase && cfg.furtherBases.all doeBaseOk &&
    cfg.otherRegions.all (fun r => r.wf && r.isOther nPeripherals) &&
    Region.disjoint (Machine.regionTable cfg) &&
    decide cfg.pollOrder.Nodup && cfg.pollOrder.all (·.isKnown cfg.furtherBases.length nPeripherals)

end Sys2Proof
end

