-- ==== Sys2Proof/Decode.lean ====
section
/-! DEFINITION. Decoding requests and CONTROL words (R81 to R94), the encoder written from the same tables (R81, R86, R90),
and the host's view of the decoder. -/

namespace Sys2Proof

/-! ## Format T -/

/-- OP = K[35:34] (R81). -/
def keyOp (key : Key) : BitVec 2 := key.extractLsb' 34 2

/-- SZ = K[33:32] (R81). -/
def keySz (key : Key) : BitVec 2 := key.extractLsb' 32 2

/-- OFF = K[31:0] (R81). -/
def keyOff (key : Key) : Word := key.extractLsb' 0 32

/-- SZ values (R83). -/
def sizeOfCode (c : BitVec 2) : AccessSize :=
  if c = 0 then .byte else if c = 1 then .half else if c = 2 then .word else .invalid

/-- Why a request is no hardware request. -/
inductive Rejection where
  /-- OP = `11` (R92). -/
  | reservedOp
  /-- ADVANCE with SZ ≠ `00` or OFF ≠ 0 (R92, D35). -/
  | advanceFields
  /-- The payload is not the one OP determines (R85, R94). -/
  | payloadMismatch
  deriving DecidableEq, Repr

/-- The operation a key and its payload stand for (R82 to R85), or why they stand for none (R92). -/
inductive Parsed where
  | operation (op : Operation)
  | rejected (why : Rejection)
  deriving DecidableEq, Repr

/-- Steps 1 and 2 of R91, and the payload of R85. -/
def parse (key : Key) (payload : Payload) : Parsed :=
  if keyOp key = 3 then .rejected .reservedOp
  else if keyOp key = 2 then
    if keySz key = 0 ∧ keyOff key = 0 then
      match payload with
      | .ticks n => .operation (.advance n)
      | _ => .rejected .payloadMismatch
    else .rejected .advanceFields
  else if keyOp key = 0 then
    match payload with
    | .none => .operation (.read (sizeOfCode (keySz key)) (keyOff key))
    | _ => .rejected .payloadMismatch
  else
    match payload with
    | .data v => .operation (.write (sizeOfCode (keySz key)) (keyOff key) v)
    | _ => .rejected .payloadMismatch

/-- The T-format rows of the opcode table. -/
inductive TRowName where
  | readIv
  | readControl
  | writeIv
  | writeControl
  | advance
  deriving DecidableEq, Repr

/-- A row of the opcode map: a key matches iff `key & mask = value` (R91). -/
structure TRow where
  name  : TRowName
  value : Key
  mask  : Key
  deriving DecidableEq, Repr

/-- The opcode map, in the table's order (R91). -/
def tRows : List TRow :=
  [⟨.readIv, 0x200000000, 0xFFFFFFFF3⟩,
   ⟨.readControl, 0x200000010, 0xFFFFFFFFF⟩,
   ⟨.writeIv, 0x600000000, 0xFFFFFFFF3⟩,
   ⟨.writeControl, 0x600000010, 0xFFFFFFFFF⟩,
   ⟨.advance, 0x800000000, 0xFFFFFFFFF⟩]

/-- `key` matches the row. -/
def TRow.matchesKey (r : TRow) (key : Key) : Bool := key &&& r.mask == r.value

/-- The row a key matches, if it matches one (R91). -/
def rowOf (key : Key) : Option TRowName := (tRows.find? fun r => r.matchesKey key).map (·.name)

/-- The outcome of decoding a transaction: a row of the table, an operation that matches no row (its bus access faults
or reaches another peripheral, R91 steps 3 and 5), or a rejection. -/
inductive Decoded where
  | row (i : Instr)
  | unmatched (op : Operation)
  | rejected (why : Rejection)
  deriving DecidableEq, Repr

/-- Decoding a transaction (R91). Total; every key that is no hardware request is rejected by name. -/
def decode (key : Key) (payload : Payload) : Decoded :=
  match parse key payload with
  | .rejected why => .rejected why
  | .operation op =>
    match rowOf key, op with
    | some .readIv, .read _ off => .row (.readIv (off.extractLsb' 2 2))
    | some .readControl, .read _ _ => .row .readControl
    | some .writeIv, .write _ off v => .row (.writeIv (off.extractLsb' 2 2) v)
    | some .writeControl, .write _ _ v => .row (.writeControl v)
    | some .advance, .advance n => .row (.advance n)
    | _, op => .unmatched op

/-! ## Format CTRL -/

/-- The CTRL-format rows: CMD, match and mask on the CONTROL word (R87, R91). -/
def cRows : List (Cmd × Word × Word) :=
  [(.idle, 0x0, 0x3), (.deobfuscateUds, 0x1, 0x3), (.deobfuscateFe, 0x2, 0x3), (.clearSecrets, 0x3, 0x3)]

/-- CMD encodings (R87). All four are defined. -/
def cmdOfBits (c : BitVec 2) : Cmd :=
  if c = 0 then .idle else if c = 1 then .deobfuscateUds else if c = 2 then .deobfuscateFe else .clearSecrets

/-- The command a CONTROL word selects, with its other fields: CMD = w[1:0], DEST = w[4:2], FLOW_DONE = w[5],
RSV = w[31:6] (R86 to R89). -/
def decodeControl (w : Word) : Instr :=
  let dest : BitVec 3 := w.extractLsb' 2 3
  let flowDone := w.getLsbD 5
  let rsv : BitVec 26 := w.extractLsb' 6 26
  match cmdOfBits (w.extractLsb' 0 2) with
  | .idle => .idle dest flowDone rsv
  | .deobfuscateUds => .deobfuscateUds dest flowDone rsv
  | .deobfuscateFe => .deobfuscateFe dest flowDone rsv
  | .clearSecrets => .clearSecrets dest flowDone rsv

/-- Decoding an encoded instruction of either format. -/
def decodeEncoded : Encoded → Decoded
  | .transaction key payload => decode key payload
  | .control w => .row (decodeControl w)

/-! ## The encoder -/

/-- SZ codes (R83). -/
def sizeCode : AccessSize → BitVec 2
  | .byte => 0
  | .half => 1
  | .word => 2
  | .invalid => 3

/-- The key `{OP, SZ, OFF}` (R81). -/
def encodeKey (op : BitVec 2) (size : BitVec 2) (off : Word) : Key := op ++ size ++ off

/-- The request that asks for an operation (R81 to R85). -/
def encodeOperation : Operation → Request
  | .read size off => .transaction (encodeKey 0 (sizeCode size) off) .none
  | .write size off v => .transaction (encodeKey 1 (sizeCode size) off) (.data v)
  | .advance n => .transaction (encodeKey 2 0 0) (.ticks n)

/-- CMD bits (R87). -/
def cmdBits : Cmd → BitVec 2
  | .idle => 0
  | .deobfuscateUds => 1
  | .deobfuscateFe => 2
  | .clearSecrets => 3

/-- The command encoder ENC(c, d, f, r) = (r << 6) | (f << 5) | (d << 2) | c (R90). -/
def encodeControl (c : Cmd) (dest : BitVec 3) (flowDone : Bool) (rsv : BitVec 26) : Word :=
  (rsv.setWidth 32 <<< 6) ||| ((BitVec.ofBool flowDone).setWidth 32 <<< 5) ||| (dest.setWidth 32 <<< 2) |||
    (cmdBits c).setWidth 32

/-- The offset of IV word k: 4k (R24, R53). -/
def ivOffset (k : BitVec 2) : Word := k.setWidth 32 <<< 2

/-- The offset of CONTROL: CONTROL_OFFSET (R8, R53). -/
def controlOffset : Word := 0x10

/-- The encoding of an instruction: a key and payload (R91), or a CONTROL word (R90). -/
def encode : Instr → Encoded
  | .readIv k => .transaction (encodeKey 0 2 (ivOffset k)) .none
  | .readControl => .transaction (encodeKey 0 2 controlOffset) .none
  | .writeIv k v => .transaction (encodeKey 1 2 (ivOffset k)) (.data v)
  | .writeControl v => .transaction (encodeKey 1 2 controlOffset) (.data v)
  | .advance n => .transaction (encodeKey 2 0 0) (.ticks n)
  | .idle d f r => .control (encodeControl .idle d f r)
  | .deobfuscateUds d f r => .control (encodeControl .deobfuscateUds d f r)
  | .deobfuscateFe d f r => .control (encodeControl .deobfuscateFe d f r)
  | .clearSecrets d f r => .control (encodeControl .clearSecrets d f r)

/-! ## The host's numbering of the opcode table's words -/

/-- The payload a key's OP determines, all zero (the table gives payloads no bits; assumption 19). -/
def zeroPayload (key : Key) : Payload :=
  if keyOp key = 1 then .data 0 else if keyOp key = 2 then .ticks 0 else .none

/-- What the bits `w` of a table row stand for: up to 32 bits are a CONTROL word (format CTRL), more are a transaction
key (format T) with a payload of zeros. Bits above the format's width make it no encoding (assumption 19). -/
def tableEncoding (nbits w : Nat) : Option Encoded :=
  if nbits ≤ 32 then
    if w < 2 ^ 32 then some (.control (BitVec.ofNat 32 w)) else none
  else if w < 2 ^ 36 then
    some (.transaction (BitVec.ofNat 36 w) (zeroPayload (BitVec.ofNat 36 w)))
  else none

/-- The instruction the decoder reads from an instruction whose bits are `w`, numbered as spec/opcode_table.json numbers
them. -/
def decodeTableWord (nbits w : Nat) : Option Instr :=
  match tableEncoding nbits w with
  | none => none
  | some e =>
    match decodeEncoded e with
    | .row i => some i
    | _ => none

end Sys2Proof
end

