-- ==== Sys2Proof/Machine/Fields.lean ====
section
/-! DEFINITION. The register file with bitfield projection (R150 to R160): pure functions on a 32-bit word. A `none` from
fieldSet, enumSet, compose or modifyWord is the spec's `reject`, an error to the calling handler (R154). -/

namespace Sys2Proof.Machine

/-- `FieldMask(f) = (2^w - 1) << off` (R152). -/
def fieldMask {M : Type} (f : RegField M) : Word := BitVec.ofNat 32 (2 ^ f.width - 1) <<< f.off

/-- `FieldGet(raw, f) = (raw >> off) & (2^w - 1)` (R153). -/
def fieldGet {M : Type} (raw : Word) (f : RegField M) : Word := (raw >>> f.off) &&& BitVec.ofNat 32 (2 ^ f.width - 1)

/-- `FieldSet(raw, f, v)`: a value that is too wide is rejected (R154, D23). -/
def fieldSet {M : Type} (raw : Word) (f : RegField M) (v : Nat) : Option Word :=
  if 2 ^ f.width ≤ v then none
  else some ((raw &&& ~~~fieldMask f) ||| (BitVec.ofNat 32 v <<< f.off))

/-- `EnumGet(raw, f)`: the member whose pattern the field holds, if there is one (R155). -/
def enumGet {M : Type} (raw : Word) (f : RegField M) : Option M :=
  match f.legal with
  | none => none
  | some l => (l.find? fun p => p.2 == (fieldGet raw f).toNat).map (·.1)

/-- `EnumSet(raw, f, m)`: rejected if `m` is not a member (R156). -/
def enumSet {M : Type} [DecidableEq M] (raw : Word) (f : RegField M) (m : M) : Option Word :=
  match f.legal with
  | none => none
  | some l =>
    match l.find? (fun p => decide (p.1 = m)) with
    | none => none
    | some p => fieldSet raw f p.2

/-- The OR of the shifted values (R157). -/
def composeBits {M : Type} : List (RegField M × Nat) → Word
  | [] => 0
  | (f, v) :: rest => (BitVec.ofNat 32 v <<< f.off) ||| composeBits rest

/-- `Compose([(f_i, v_i)])`: rejected if a value is too wide or two listed fields overlap (R157). -/
def compose {M : Type} (pairs : List (RegField M × Nat)) : Option Word :=
  if (pairs.all fun p => decide (p.2 < 2 ^ p.1.width)) && Layout.disjoint (pairs.map (·.1)) then
    some (composeBits pairs)
  else none

/-- `Modify` on a raw word: the FieldSets in the order of the list (R158). -/
def modifyWord {M : Type} (raw : Word) : List (RegField M × Nat) → Option Word
  | [] => some raw
  | (f, v) :: rest =>
    match fieldSet raw f v with
    | none => none
    | some raw' => modifyWord raw' rest

/-- `Modify(reg, …)`: the register's word is replaced, its layout stays (R158). -/
def modifyRegister {M : Type} (reg : Register M) (pairs : List (RegField M × Nat)) : Option (Register M) :=
  (modifyWord reg.raw pairs).map fun raw => { reg with raw := raw }

/-- CONTROL.CMD (R160). -/
def cmdField : RegField Cmd :=
  { name := "CMD", off := 0, width := 2,
    legal := some [(.idle, 0), (.deobfuscateUds, 1), (.deobfuscateFe, 2), (.clearSecrets, 3)] }

/-- CONTROL.DEST (R160). -/
def destField : RegField Cmd := { name := "DEST", off := 2, width := 3, legal := none }

/-- CONTROL.FLOW_DONE (R160). -/
def flowDoneField : RegField Cmd := { name := "FLOW_DONE", off := 5, width := 1, legal := none }

/-- The CONTROL register's layout (R160). -/
def controlLayout : Layout Cmd := [cmdField, destField, flowDoneField]

end Sys2Proof.Machine
end

