-- ==== Sys2Proof/Machine/State.lean ====
section
/-! DEFINITION. The machine's state (R11, R20 to R39), the outcomes an operation returns to its caller (R12, R210), the
reasons a step can stop, construction (R240, R241) and the state after reset. -/

namespace Sys2Proof.Machine

/-- A bus fault and the information it records: `(op, size, addr)` (R210 to R212). -/
structure BusFault where
  kind : BusFaultKind
  op   : AccessKind
  size : AccessSize
  addr : Word
  deriving DecidableEq, Repr

/-- The cause of a fatal collaborator failure (R186, R210). -/
inductive FatalInfo where
  | vaultWrite (dest : Nat)
  | cipherFail
  deriving DecidableEq, Repr

/-- The outcome of a driver operation, as its caller receives it (R12, R133). -/
inductive Response where
  /-- `Ok(v)`: a successful read. -/
  | value (v : Word)
  /-- `Ok()`: a successful write or advance. -/
  | done
  /-- `Fault(kind, info)`: a bus fault; no other state changed (R128, R218). -/
  | fault (f : BusFault)
  /-- `Stuck(Fatal)`: the ADVANCE in which a collaborator failed (R214). -/
  | stuck (cause : FatalInfo)
  deriving DecidableEq, Repr

/-- The reasons a step ends the run. -/
inductive Fault where
  /-- Raised by step and by every instruction when `fatal` is set: "From then on READ, WRITE and ADVANCE have no step"
  (R214). Safe: the machine stops where the spec gives it no step. -/
  | stuckFatal (cause : FatalInfo)
  deriving DecidableEq, Repr

/-- The reasons the model refuses. Each is safe: the request is none that the hardware can express (R12). -/
inductive Refusal where
  /-- Raised by an arm of exec that has no meaning yet; none is left. Safe. -/
  | notModelled (mnemonic : String)
  /-- Raised by step on a key with OP = `11` (R92). Safe. -/
  | reservedOp
  /-- Raised by step on an ADVANCE key with SZ ≠ `00` or OFF ≠ 0 (R92, D35). Safe. -/
  | advanceFields
  /-- Raised by step on a request whose payload is not the one OP determines (R94). Safe. -/
  | payloadMismatch
  /-- Raised by step on an instruction fetch (R60, D19). Safe. -/
  | instructionFetch (addr : Word)
  /-- Raised by State.construct on an ill-formed configuration (R52, D13). Safe. -/
  | illFormedConfig
  deriving DecidableEq, Repr

/-- The state of the block: the tuple S of R11 (whose `iv`, `control` and `pending` are those of the DOE at DOE_BASE), the same
three of every further DOE (R224), the configuration of R40 (which no step changes), and three fields of the model's own: the
driver's requests not yet served, the last outcome returned, and the internal states of other peripherals. -/
structure State where
  /-- The virtual time (R23). -/
  now         : Nat
  /-- The IV buffer (R24). -/
  iv          : Bytes 16
  /-- The CONTROL register (R26). -/
  control     : Word
  /-- The fire time of the DOE's one outstanding timer action (R32). -/
  pending     : Option Nat
  /-- The key vault: KV_SLOTS slots (R35; assumption 7). -/
  kv          : List KeySlot
  /-- The obfuscated device secret (R37). -/
  uds         : Bytes 48
  /-- The obfuscated field entropy (R37). -/
  fe          : Bytes 64
  /-- The deobfuscation key (R37). -/
  doekey      : Bytes 32
  /-- The sticky mark of a collaborator failure (R39, R214). -/
  fatal       : Option FatalInfo
  /-- What each further DOE on the bus owns; the clock, the vault and the secret store are shared (R224; assumption 28). -/
  further     : List DoeUnit
  /-- The configuration (R40; assumption 6). -/
  cfg         : Config
  /-- MODEL'S OWN: the internal state of each other peripheral, as a code (R134; assumption 13). -/
  peripherals : List Nat
  /-- MODEL'S OWN: the driver's requests not yet served, oldest first (R6, R22; assumption 1). -/
  requests    : List Request
  /-- MODEL'S OWN: the outcome of the last request served (R133; assumption 2). -/
  response    : Option Response
  deriving DecidableEq, Repr

/-- The outcome of a step. -/
abbrev Result := Host.Outcome State Fault Refusal

/-- What the constructor of the block is given: the configuration and the collaborators' initial contents (R8, R36, R38,
R241). -/
structure Params where
  cfg          : Config
  kv0          : List KeySlot
  uds0         : Bytes 48
  fe0          : Bytes 64
  doekey0      : Bytes 32
  peripherals0 : List Nat
  deriving DecidableEq, Repr

/-- Parameters the model accepts: KV_SLOTS ≥ 1 (R8) and a well-formed configuration (R52). -/
def Params.wf (p : Params) : Bool := decide (1 ≤ p.kv0.length) && p.cfg.wf p.peripherals0.length

/-- The default parameters: the default configuration, KV_SLOTS = 8, and collaborators that hold zeros. DESIGN CHOICE: no
source gives the contents (assumption 10). -/
def Params.default : Params :=
  { cfg := .default, kv0 := List.replicate 8 (zeros 64), uds0 := zeros 48, fe0 := zeros 64, doekey0 := zeros 32,
    peripherals0 := [] }

/-- A DOE after construction (R25, R31, R33, R240). -/
def builtDoe : DoeUnit := { iv := zeros 16, control := 0, pending := none }

/-- The state after construction (R23, R25, R31, R33, R36, R38, R39, R240). -/
def State.built (p : Params) : State :=
  { now := 0, iv := zeros 16, control := 0, pending := none, kv := p.kv0, uds := p.uds0, fe := p.fe0,
    doekey := p.doekey0, fatal := none, further := p.cfg.furtherBases.map fun _ => builtDoe, cfg := p.cfg,
    peripherals := p.peripherals0, requests := [], response := none }

/-- Construction, the block's only reset (R240, R241). An ill-formed configuration is refused (R52). -/
def State.construct (p : Params) : Except Refusal State :=
  if p.wf then .ok (.built p) else .error .illFormedConfig

/-- The machine right after reset, with the default parameters. -/
def State.reset : State := .built .default

end Sys2Proof.Machine
end

