-- ==== Sys2Proof/Machine/Flags.lean ====
section
/-! DEFINITION. The block's one flag, CONTROL.FLOW_DONE (R29), how it is cleared on command accept (R174) and set on fire
(R183), and the abstract DOE state it takes part in (R34). -/

namespace Sys2Proof.Machine

/-- FLOW_DONE of a CONTROL word (R29, R89). -/
def flowDone (control : Word) : Bool := control.getLsbD 5

/-- `Modify(control, [(FLOW_DONE, 0)])` (R158, R174). -/
def clearFlowDone (control : Word) : Word := (modifyWord control [(flowDoneField, 0)]).getD control

/-- `Modify(control, [(FLOW_DONE, 1)])` (R158, R183). -/
def setFlowDone (control : Word) : Word := (modifyWord control [(flowDoneField, 1)]).getD control

/-- The abstract DOE states (R34). -/
inductive DoeState where
  | idle
  | commandAccepted
  | completed
  deriving DecidableEq, Repr

/-- The abstract state of a DOE, a function of `(pending, control)` (R34). -/
def doeStateOf (pending : Option Nat) (control : Word) : DoeState :=
  match pending with
  | some _ => .commandAccepted
  | none => if flowDone control then .completed else .idle

/-- The abstract state of the DOE at DOE_BASE (R34). -/
def doeState (s : State) : DoeState := doeStateOf s.pending s.control

end Sys2Proof.Machine
end

