-- ==== Sys2Proof/Machine/Operands.lean ====
section
/-! DEFINITION. The operand forms: access sizes (R83), addresses from offsets (R84), IV words and their bytes (R24, R56,
R97), and the fields of CONTROL that a fire reads (R178). -/

namespace Sys2Proof.Machine

/-- The number of bytes of a size, if the size is one of {1, 2, 4} (R83, R123). -/
def sizeBytes : AccessSize → Option Nat
  | .byte => some 1
  | .half => some 2
  | .word => some 4
  | .invalid => none

/-- The absolute address of an offset: `OFF = addr - DOE_BASE` modulo 2^32 (R81, R84). -/
def addrOf (cfg : Config) (off : Word) : Word := cfg.doeBase + off

/-- Byte j of the four bytes of a word, in address order: `bytes_le` or `bytes_be` (R10, R56). -/
def wordByte (order : ByteOrder) (w : Word) (j : Fin 4) : Byte :=
  match order with
  | .le => w.extractLsb' (8 * j.val) 8
  | .be => w.extractLsb' (24 - 8 * j.val) 8

/-- `le32` or `be32` of four bytes in address order (R10, R56). -/
def packWord (order : ByteOrder) (b0 b1 b2 b3 : Byte) : Word :=
  match order with
  | .le => b3 ++ b2 ++ b1 ++ b0
  | .be => b0 ++ b1 ++ b2 ++ b3

/-- Byte `iv[4k + j]` (R24). -/
def ivByte (iv : Bytes 16) (k : BitVec 2) (j : Fin 4) : Byte := iv[4 * k.toNat + j.val]'(by have := k.isLt; omega)

/-- The word IVk as a read returns it (R56). -/
def ivWord (order : ByteOrder) (iv : Bytes 16) (k : BitVec 2) : Word :=
  packWord order (ivByte iv k 0) (ivByte iv k 1) (ivByte iv k 2) (ivByte iv k 3)

/-- The buffer after a word write to IVk: `iv[4k..4k+3]` replaced, the other bytes kept (R56). -/
def setIvWord (order : ByteOrder) (iv : Bytes 16) (k : BitVec 2) (w : Word) : Bytes 16 :=
  (((iv.setIfInBounds (4 * k.toNat) (wordByte order w 0)).setIfInBounds (4 * k.toNat + 1) (wordByte order w 1)).setIfInBounds
    (4 * k.toNat + 2) (wordByte order w 2)).setIfInBounds (4 * k.toNat + 3) (wordByte order w 3)

/-- The low `n` bytes of a word, zero-extended: what a region of granularity n moves (R61). -/
def lowBytes (n : Nat) (w : Word) : Word := w &&& BitVec.ofNat 32 (2 ^ (8 * n) - 1)

/-- CONTROL.CMD as the accept and the fire decode it (R174, R177). -/
def controlCmd (control : Word) : Option Cmd := enumGet control cmdField

/-- CONTROL.DEST as the fire decodes it: an index 0..7 (R88, R177). -/
def controlDest (control : Word) : Nat := (fieldGet control destField).toNat

end Sys2Proof.Machine
end

