-- ==== Sys2Proof/Machine/Ops.lean ====
section
/-! DEFINITION. The shared operations: the stuck check every operation starts with, returning an outcome to the caller,
raising a bus fault, going fatal, the collaborators' interfaces, and a DOE operation done by a further DOE (R224). The block
has no handler, vector or trap return (R218, R219): returning a fault to the caller is the whole of taking an
exception, and nothing is returned from. -/

namespace Sys2Proof.Machine

/-- `if fatal != none: no step` (R101, R129, R130, R214). -/
def ifLive (s : State) (r : Result) : Result :=
  match s.fatal with
  | some cause => .fault (.stuckFatal cause)
  | none => r

/-- The caller receives an outcome (R12, R133). -/
def State.respond (s : State) (r : Response) : State := { s with response := some r }

/-- TAKING A BUS FAULT: it is returned to the caller, nothing is saved, and no other state changes (R128, R218). -/
def State.returnFault (s : State) (f : BusFault) : State := s.respond (.fault f)

/-- GOING FATAL: the sticky mark is set to the cause (R186, R214). -/
def State.goFatal (s : State) (cause : FatalInfo) : State := { s with fatal := some cause }

/-- The code of a bus fault: 1 AccessFault, 2 MisalignedFault (R210, D14). -/
def busFaultCode : BusFaultKind → Nat
  | .access => 1
  | .misaligned => 2

/-- The code of an outcome that is a fault: 1, 2, or 3 for Fatal (R210, D14). -/
def faultCode : Response → Option Nat
  | .value _ => none
  | .done => none
  | .fault f => some (busFaultCode f.kind)
  | .stuck _ => some 3

/-! ## The key vault (R192, R225) -/

/-- KV_SLOTS (R8, R35; assumption 7). -/
def State.kvSlots (s : State) : Nat := s.kv.length

/-- `kv[index] <- bytes`. -/
def State.setSlot (s : State) (index : Nat) (b : KeySlot) : State := { s with kv := s.kv.set index b }

/-- `write_key(index, bytes)`: fails if `index ≥ KV_SLOTS` (R192). -/
def State.writeKey (s : State) (index : Nat) (b : KeySlot) : Option State :=
  if index < s.kvSlots then some (s.setSlot index b) else none

/-- `read_key(index)`: the test port, no driver request; it changes nothing (R192, R225, D33). -/
def State.readKey (s : State) (index : Nat) : Option KeySlot := s.kv[index]?

/-! ## The secret store (R193) -/

/-- `uds()`. -/
def State.udsOf (s : State) : Bytes 48 := s.uds

/-- `field_entropy()`. -/
def State.fieldEntropy (s : State) : Bytes 64 := s.fe

/-- `doe_key()`. -/
def State.doeKey (s : State) : Bytes 32 := s.doekey

/-- `clear_secrets()`: the three writes of R181. -/
def State.clearSecretStore (s : State) : State := { s with uds := zeros 48, doekey := zeros 32, fe := zeros 64 }

/-! ## The cipher (R194) -/

/-- `Dec(key, iv, ct)`: `none` on the calls the configuration lists as failing, else the free plaintext (R186, R194, D24;
assumption 8). -/
def decrypt (cfg : Config) (m : Nat) (key : Bytes 32) (iv : Bytes 16) (ct : Bytes (16 * m)) : Option (Bytes (16 * m)) :=
  if (⟨key, iv, ct.toList⟩ : CipherCall) ∈ cfg.cipherFailures then none
  else some (Config.aes256CbcPlaintext m key iv ct)

/-- The XOR of two blocks, byte by byte. -/
def xorBlock (a b : Bytes 16) : Bytes 16 := Vector.ofFn fun i => a[i] ^^^ b[i]

/-- Block i of 16·m bytes. -/
def block {m : Nat} (bytes : Bytes (16 * m)) (i : Fin m) : Bytes 16 :=
  Vector.ofFn fun j => bytes[16 * i.val + j.val]'(by have := i.isLt; have := j.isLt; omega)

/-- The named property of R194, "Dec = AES-256-CBC decryption without padding": P_i = AES256_Decrypt(key, C_i) XOR C_{i-1}
with C_0 = iv. PRESUMED: the equations are general knowledge (G1; assumption 31). A claim that needs the plaintext's value
takes this as a premise. -/
def CipherIsAes256Cbc : Prop :=
  ∀ (m : Nat) (key : Bytes 32) (iv : Bytes 16) (ct : Bytes (16 * m)) (i : Fin m),
    block (Config.aes256CbcPlaintext m key iv ct) i =
      xorBlock (Config.aes256BlockDecrypt key (block ct i))
        (if h : i.val = 0 then iv else block ct ⟨i.val - 1, by omega⟩)

/-! ## Further DOEs (R224) -/

/-- The machine with the registers of a further DOE in the DOE's place: what that DOE's operations work on, everything else
being shared. -/
def State.withDoe (s : State) (d : DoeUnit) : State := { s with iv := d.iv, control := d.control, pending := d.pending }

/-- The machine as further DOE `j` sees it. A `j` that names no DOE occurs in no well-formed machine (assumption 28). -/
def State.focus (s : State) (j : Nat) : State :=
  match s.further[j]? with
  | some d => s.withDoe d
  | none => s

/-- A DOE operation done by further DOE `j`: what it writes to the DOE's registers goes to that DOE's own, what it does to the
vault, the secret store and the fatal mark is shared, and the DOE at DOE_BASE keeps its registers (R224). -/
def atFurther (j : Nat) (f : State → State) (s : State) : State :=
  match s.further[j]? with
  | some d =>
    let t := f (s.withDoe d)
    { t with
      iv := s.iv
      control := s.control
      pending := s.pending
      further := s.further.set j { iv := t.iv, control := t.control, pending := t.pending } }
  | none => s

/-! ## Other peripherals (R134) -/

/-- What another peripheral's handlers may depend on (R74, R134). -/
def State.view (s : State) : MachineView :=
  { now := s.now, iv := s.iv, control := s.control, pending := s.pending, kv := s.kv, uds := s.uds, fe := s.fe,
    doekey := s.doekey, further := s.further, peripherals := s.peripherals }

/-- The internal state of peripheral `p` becomes `v`; nothing else changes (R131, R134, D17). -/
def State.setPeripheral (s : State) (p v : Nat) : State := { s with peripherals := s.peripherals.set p v }

end Sys2Proof.Machine
end

