-- ==== Sys2Proof/Machine/Timer.lean ====
section
/-! DEFINITION. The one-shot timer (R103 to R107). -/

namespace Sys2Proof.Machine

/-- DOE_LATENCY = 1000 ticks (R8, R222, R250). -/
def doeLatency : Nat := 1000

/-- `schedule(n) = some (now + n)` (R103). -/
def schedule (now n : Nat) : Option Nat := some (now + n)

/-- `fired(slot)`: whether the action has fired, and the slot afterwards (R104). -/
def fired (now : Nat) (slot : Option Nat) : Bool × Option Nat :=
  match slot with
  | some t => if t ≤ now then (true, none) else (false, some t)
  | none => (false, none)

end Sys2Proof.Machine
end

