-- ==== Sys2Proof/Machine/Commands.lean ====
section
/-! DEFINITION. The four DOE commands (R179 to R183, R186): what each does when it fires, and the meanings of the four
CTRL-format rows. A row's meaning is the fire of that command: the operation, then FLOW_DONE. It reads DEST from the CONTROL
word that selects it; the word's other fields have no effect on it (R30, R86). The timer slot is consumed by the poll before
it dispatches (R177), so a meaning leaves `pending` alone (assumption 20). -/

namespace Sys2Proof.Machine

/-- A plaintext goes into slot `dest`, or the cipher's failure is fatal (R179, R180, R186). -/
def deliver (s : State) (dest : Nat) (slot : Option KeySlot) : State :=
  if dest < s.kvSlots then
    match slot with
    | some b => s.setSlot dest b
    | none => s.goFatal .cipherFail
  else s.goFatal (.vaultWrite dest)

/-- The slot DeobfuscateUDS writes: 48 bytes of plaintext, zero-padded to 64 (R179). -/
def udsSlot (s : State) : Option KeySlot := (decrypt s.cfg 3 s.doeKey s.iv s.udsOf).map fun pt => pt ++ zeros 16

/-- The slot DeobfuscateFE writes: 64 bytes of plaintext (R180). -/
def feSlot (s : State) : Option KeySlot := decrypt s.cfg 4 s.doeKey s.iv s.fieldEntropy

/-- `do_uds(dest)` (R179). -/
def doUds (dest : Nat) (s : State) : State := deliver s dest (udsSlot s)

/-- `do_fe(dest)` (R180). -/
def doFe (dest : Nat) (s : State) : State := deliver s dest (feSlot s)

/-- `do_clear()` (R181). -/
def doClear (s : State) : State := s.clearSecretStore

/-- The no-op of an Idle CMD at fire (R182). -/
def doIdle (s : State) : State := s

/-- After the command, FLOW_DONE is set, unless the fire ended in fatal (R177, R183, R186). -/
def completeFire (s : State) : State :=
  match s.fatal with
  | some _ => s
  | none => { s with control := setFlowDone s.control }

/-- IDLE at fire (R182, R183). -/
def execIdle (_dest : BitVec 3) (_flowDone : Bool) (_rsv : BitVec 26) (s : State) : Result :=
  ifLive s (.next (completeFire (doIdle s)))

/-- DEOBFUSCATE_UDS at fire (R179, R183, R186). -/
def execDeobfuscateUds (dest : BitVec 3) (_flowDone : Bool) (_rsv : BitVec 26) (s : State) : Result :=
  ifLive s (.next (completeFire (doUds dest.toNat s)))

/-- DEOBFUSCATE_FE at fire (R180, R183, R186). -/
def execDeobfuscateFe (dest : BitVec 3) (_flowDone : Bool) (_rsv : BitVec 26) (s : State) : Result :=
  ifLive s (.next (completeFire (doFe dest.toNat s)))

/-- CLEAR_SECRETS at fire: DEST is ignored (R181, R183). -/
def execClearSecrets (_dest : BitVec 3) (_flowDone : Bool) (_rsv : BitVec 26) (s : State) : Result :=
  ifLive s (.next (completeFire (doClear s)))

end Sys2Proof.Machine
end

