-- ==== Sys2Proof/Machine/Doe.lean ====
section
/-! DEFINITION. The DOE peripheral: its register handlers (R171 to R175) and its poll hook (R177, R178). -/

namespace Sys2Proof.Machine

/-- The IV word an offset inside the IV region falls in (R24). -/
def ivIndex (off : Nat) : BitVec 2 := BitVec.ofNat 2 (off / 4)

/-- Handler READ.IV (R171). -/
def doeReadIv (s : State) (k : BitVec 2) : Word := ivWord s.cfg.ivByteOrder s.iv k

/-- Handler WRITE.IV (R172). -/
def doeWriteIv (s : State) (k : BitVec 2) (v : Word) : State :=
  { s with iv := setIvWord s.cfg.ivByteOrder s.iv k v }

/-- Handler READ.CONTROL (R173). -/
def doeReadControl (s : State) : Word := s.control

/-- Handler WRITE.CONTROL: the word is stored; a non-Idle CMD clears FLOW_DONE and schedules the fire, which replaces any
pending action; an Idle CMD leaves `pending` (R174 to R176, D34). -/
def doeWriteControl (s : State) (v : Word) : State :=
  if controlCmd v = some .idle then { s with control := v }
  else { s with control := clearFlowDone v, pending := schedule s.now doeLatency }

/-- The fire: CMD and DEST are read from CONTROL now (R178), the command is performed, FLOW_DONE is set (R177). A pattern
that is no member does nothing ("Any other/idle value: no-op", R182; assumption 21). -/
def fire (s : State) : State :=
  completeFire <|
    match controlCmd s.control with
    | some .deobfuscateUds => doUds (controlDest s.control) s
    | some .deobfuscateFe => doFe (controlDest s.control) s
    | some .clearSecrets => doClear s
    | some .idle => doIdle s
    | none => doIdle s

/-- The poll hook: nothing happens unless the action has fired; then the slot is emptied and the command fires (R177). -/
def doePoll (s : State) : State :=
  match fired s.now s.pending with
  | (true, slot) => fire { s with pending := slot }
  | (false, _) => s

end Sys2Proof.Machine
end

