-- ==== Sys2Proof/Machine/Bus.lean ====
section
/-! DEFINITION. The bus: the check pipeline (R121 to R126), dispatch (R127), READ and WRITE (R129, R130), and the meanings
of the four rows that are bus accesses to the DOE. -/

namespace Sys2Proof.Machine

/-- `Check(op, size, addr)`: the first failing check raises its fault (R121 to R126, R217). -/
def check (cfg : Config) (op : AccessKind) (size : AccessSize) (addr : Word) : Except BusFault Region :=
  match owner cfg addr with
  | none => .error { kind := .access, op, size, addr }
  | some r =>
    match sizeBytes size with
    | none => .error { kind := cfg.sizeMismatchFault, op, size, addr }
    | some n =>
      if addr.toNat % n ≠ 0 then .error { kind := .misaligned, op, size, addr }
      else if n ≠ r.gran then .error { kind := cfg.sizeMismatchFault, op, size, addr }
      else if r.base + r.len < addr.toNat + n then .error { kind := .access, op, size, addr }
      else .ok r

/-- `r.read(off)`: a read handler changes no state (R63, R127). A further DOE answers from its own registers
(R224). A region of another peripheral returns what it holds, zero-extended from its granularity (R61, R134). -/
def readHandler (s : State) (r : Region) (off : Nat) : Word :=
  match r.handler with
  | .doeIv => doeReadIv s (ivIndex off)
  | .doeControl => doeReadControl s
  | .furtherIv j => doeReadIv (s.focus j) (ivIndex off)
  | .furtherControl j => doeReadControl (s.focus j)
  | .peripheral p region => lowBytes r.gran (Config.peripheralRead p region off s.view)

/-- `r.write(off, value)`: a write handler changes its target only (R127, R131). A further DOE writes its own
registers (R224). A region of another peripheral takes the low bytes of its granularity (R61, R134). -/
def writeHandler (s : State) (r : Region) (off : Nat) (v : Word) : State :=
  match r.handler with
  | .doeIv => doeWriteIv s (ivIndex off) v
  | .doeControl => doeWriteControl s v
  | .furtherIv j => atFurther j (fun t => doeWriteIv t (ivIndex off) v) s
  | .furtherControl j => atFurther j (fun t => doeWriteControl t v) s
  | .peripheral p region => s.setPeripheral p (Config.peripheralWrite p region off (lowBytes r.gran v) s.view)

/-- READ(size, addr) (R129). -/
def busRead (size : AccessSize) (addr : Word) (s : State) : Result :=
  ifLive s <|
    match check s.cfg .read size addr with
    | .error f => .next (s.returnFault f)
    | .ok r => .next (s.respond (.value (readHandler s r (addr.toNat - r.base))))

/-- WRITE(size, addr, value) (R130). -/
def busWrite (size : AccessSize) (addr : Word) (v : Word) (s : State) : Result :=
  ifLive s <|
    match check s.cfg .write size addr with
    | .error f => .next (s.returnFault f)
    | .ok r => .next ((writeHandler s r (addr.toNat - r.base) v).respond .done)

/-- READ.IV k: the word READ at DOE_BASE + 4k (R91, R171). -/
def execReadIv (k : BitVec 2) (s : State) : Result := busRead .word (addrOf s.cfg (ivOffset k)) s

/-- READ.CONTROL: the word READ at DOE_BASE + 0x10 (R91, R173). -/
def execReadControl (s : State) : Result := busRead .word (addrOf s.cfg controlOffset) s

/-- WRITE.IV k, v: the word WRITE at DOE_BASE + 4k (R91, R172). -/
def execWriteIv (k : BitVec 2) (v : Word) (s : State) : Result := busWrite .word (addrOf s.cfg (ivOffset k)) v s

/-- WRITE.CONTROL v: the word WRITE at DOE_BASE + 0x10 (R91, R174). -/
def execWriteControl (v : Word) (s : State) : Result := busWrite .word (addrOf s.cfg controlOffset) v s

end Sys2Proof.Machine
end

