-- ==== Sys2Proof/Machine/Clock.lean ====
section
/-! DEFINITION. The clock: ADVANCE and its poll fan-out (R100 to R102, R108 to R110). -/

namespace Sys2Proof.Machine

/-- One poll hook: the DOE's (R177), a further DOE's, which is the same on its own registers (R224), or another peripheral's,
which may change only that peripheral's own state (R134, D17). -/
def poll (p : Poller) (s : State) : State :=
  match p with
  | .doe => doePoll s
  | .furtherDoe j => atFurther j doePoll s
  | .peripheral i => s.setPeripheral i (Config.peripheralPoll i s.view)

/-- The polls of one ADVANCE, in order; after a fatal the remaining polls are not run (R69, R101, R214). -/
def pollAll : List Poller → State → State
  | [], s => s
  | p :: rest, s =>
    match (poll p s).fatal with
    | some _ => poll p s
    | none => pollAll rest (poll p s)

/-- Time moves, then every poll hook runs once (R101, R102). -/
def advanced (n : Nat) (s : State) : State := pollAll s.cfg.pollOrder { s with now := s.now + n }

/-- What ADVANCE returns: `Ok()`, or `Stuck(Fatal)` (R101). -/
def advanceResponse (s : State) : Response :=
  match s.fatal with
  | some cause => .stuck cause
  | none => .done

/-- ADVANCE n (R101). -/
def execAdvance (n : Nat) (s : State) : Result :=
  ifLive s (.next ((advanced n s).respond (advanceResponse (advanced n s))))

end Sys2Proof.Machine
end

