-- ==== Sys2Proof/Machine/Dispatch.lean ====
section
/-! DEFINITION. One arm per row of the opcode table. -/

namespace Sys2Proof.Machine

def exec (i : Instr) (s : State) : Host.Outcome State Fault Refusal :=
  match i with
  | .readIv k => Sys2Proof.Machine.execReadIv k s
  | .readControl => Sys2Proof.Machine.execReadControl s
  | .writeIv k v => Sys2Proof.Machine.execWriteIv k v s
  | .writeControl v => Sys2Proof.Machine.execWriteControl v s
  | .advance n => Sys2Proof.Machine.execAdvance n s
  | .idle d f r => Sys2Proof.Machine.execIdle d f r s
  | .deobfuscateUds d f r => Sys2Proof.Machine.execDeobfuscateUds d f r s
  | .deobfuscateFe d f r => Sys2Proof.Machine.execDeobfuscateFe d f r s
  | .clearSecrets d f r => Sys2Proof.Machine.execClearSecrets d f r s

end Sys2Proof.Machine
end

