-- ==== Sys2Proof/Machine/Serve.lean ====
section
/-! DEFINITION. Serving one driver request (R91), and placing the host's table words where the next step serves them. -/

namespace Sys2Proof.Machine

/-- An operation whose key matches no row of the table: its bus access runs the check pipeline all the same, and faults or
reaches another peripheral (R91 steps 3 and 5, R129, R130). -/
def execOperation (op : Operation) (s : State) : Result :=
  match op with
  | .read size off => busRead size (addrOf s.cfg off) s
  | .write size off v => busWrite size (addrOf s.cfg off) v s
  | .advance n => execAdvance n s

/-- The model's refusal of what is no hardware request (R12, R92). -/
def refusalOf : Rejection → Refusal
  | .reservedOp => .reservedOp
  | .advanceFields => .advanceFields
  | .payloadMismatch => .payloadMismatch

/-- Serving one request (R91). A fetch is refused (R60). -/
def serve (r : Request) (s : State) : Result :=
  match r with
  | .fetch addr => .refused (.instructionFetch addr)
  | .transaction key payload =>
    match decode key payload with
    | .row i => exec i s
    | .unmatched op => execOperation op s
    | .rejected why => .refused (refusalOf why)

/-- One step of the block: the oldest request is taken and served. A stuck machine has no step (R214). With no request the
block does nothing (R226; assumption 5). -/
def serveNext (s : State) : Result :=
  ifLive s <|
    match s.requests with
    | [] => .next s
    | r :: rest => serve r { s with requests := rest }

/-- POLL_ORDER with the DOE in it. -/
def pollOrderWithDoe (order : List Poller) : List Poller := if .doe ∈ order then order else .doe :: order

/-- An encoded instruction placed so that the very next step runs it. A request becomes the next request. A CONTROL word
becomes CONTROL with its timer action due now, and the next request is ADVANCE 0, whose poll fires it (R109, R177;
assumption 19). -/
def placeEncoded (s : State) : Encoded → State
  | .transaction key payload => { s with requests := .transaction key payload :: s.requests }
  | .control w =>
    { s with
      control := w
      pending := some s.now
      cfg := { s.cfg with pollOrder := pollOrderWithDoe s.cfg.pollOrder }
      requests := encodeOperation (.advance 0) :: s.requests }

end Sys2Proof.Machine
end

