-- ==== Sys2Proof/Machine/Step.lean ====
section
/-! DEFINITION. The step of the block, and the host's placing of a table word. -/

namespace Sys2Proof.Machine

/-- One driver operation (R6, R62). -/
def step (s : State) : Host.Outcome State Fault Refusal := serveNext s

/-- The state with a table row's word placed where the next step takes its instruction (assumption 19). -/
def State.withFetchWord (s : State) (nbits w : Nat) : State :=
  match tableEncoding nbits w with
  | some e => placeEncoded s e
  | none => s

end Sys2Proof.Machine
end

