-- ==== Sys2Proof/Machine/Script.lean ====
section
/-! DEFINITION. The driver's side (R95, R96): the script requests and the pseudo-operations, which are host-side macros over
driver requests and no part of the block. An address is written absolutely; OFF is taken modulo 2^32 (R84). -/

namespace Sys2Proof.Machine

/-- `R1 a`, `R2 a`, `R4 a`, `R8 a` (R95). -/
def scriptRead (cfg : Config) (size : AccessSize) (addr : Word) : Request :=
  encodeOperation (.read size (addr - cfg.doeBase))

/-- `W1 a, v`, `W2 a, v`, `W4 a, v`, `W8 a, v` (R95). -/
def scriptWrite (cfg : Config) (size : AccessSize) (addr v : Word) : Request :=
  encodeOperation (.write size (addr - cfg.doeBase) v)

/-- `ADV n` (R95). -/
def scriptAdvance (n : Nat) : Request := encodeOperation (.advance n)

/-- The register names of R95: IVk = DOE+4k. -/
def ivAddr (cfg : Config) (k : BitVec 2) : Word := addrOf cfg (ivOffset k)

/-- The register names of R95: CONTROL = DOE+0x10. -/
def controlAddr (cfg : Config) : Word := addrOf cfg controlOffset

/-- `SETIV w0, w1, w2, w3` (R96). -/
def scriptSetIv (cfg : Config) (w0 w1 w2 w3 : Word) : List Request :=
  [scriptWrite cfg .word (ivAddr cfg 0) w0, scriptWrite cfg .word (ivAddr cfg 1) w1,
   scriptWrite cfg .word (ivAddr cfg 2) w2, scriptWrite cfg .word (ivAddr cfg 3) w3]

/-- `CMD c, d` → `W4 CONTROL, ENC(c, d, 0, 0)` (R96). -/
def scriptCmd (cfg : Config) (c : Cmd) (d : BitVec 3) : Request :=
  scriptWrite cfg .word (controlAddr cfg) (encodeControl c d false 0)

/-- The driver issues one request and waits for its outcome (R133). -/
def issue (r : Request) (s : State) : Result := step { s with requests := [r] }

/-- The driver issues requests one after another, stopping where the machine does (D30). -/
def issueAll : List Request → State → Result
  | [], s => .next s
  | r :: rest, s =>
    match issue r s with
    | .next s' => issueAll rest s'
    | .fault f => .fault f
    | .refused f => .refused f

/-- One round of WAITDONE: `ADV k ; v <- R4 CONTROL` (R96). -/
def waitRound (k : Nat) (s : State) : Result :=
  issueAll [scriptAdvance k, scriptRead s.cfg .word (controlAddr s.cfg)] s

/-- FLOW_DONE as the driver sees it in the value it read (R96). -/
def seesDone (s : State) : Bool :=
  match s.response with
  | some (.value v) => v.getLsbD 5
  | _ => false

/-- `WAITDONE k` (R96), at most `fuel` rounds: the number of rounds and the state in which the loop ends, or none if it has
not ended by then or the machine stopped (assumption 32). -/
def waitDone (k : Nat) : Nat → State → Option (Nat × State)
  | 0, _ => none
  | fuel + 1, s =>
    match waitRound k s with
    | .next s' => if seesDone s' then some (1, s') else (waitDone k fuel s').map fun p => (p.1 + 1, p.2)
    | _ => none

end Sys2Proof.Machine
end

