-- ==== Sys2Proof/Safety.lean ====
section
/-! DEFINITION. What claims about runs are stated in: the invariant of the machine, cleared secrets, the
driver's ADVANCE sequences, and states that the bus cannot tell apart. -/

namespace Sys2Proof.Machine

/-- The machine's invariant: the configuration is well-formed (R52, R8), the vault has a slot (R8), every further DOE has its
registers (R224), a pending action of a DOE lies at most DOE_LATENCY ahead (R174) and, if the machine is live and that DOE is
polled, not in the past (R109), and a fatal mark has a cause that the configuration allows and has consumed the action of some
DOE (R177, R186). -/
structure MachineInv (s : State) : Prop where
  cfgWf               : s.cfg.wf s.peripherals.length = true
  slots               : 1 ≤ s.kv.length
  furtherCount        : s.further.length = s.cfg.furtherBases.length
  pendingBound        : ∀ t, s.pending = some t → t ≤ s.now + 1000
  furtherPendingBound : ∀ (j : Nat) d t, s.further[j]? = some d → d.pending = some t → t ≤ s.now + 1000
  pendingLater        : s.fatal = none → Poller.doe ∈ s.cfg.pollOrder → ∀ t, s.pending = some t → s.now < t
  furtherPendingLater : s.fatal = none → ∀ j, Poller.furtherDoe j ∈ s.cfg.pollOrder →
    ∀ d t, s.further[j]? = some d → d.pending = some t → s.now < t
  fatalConsumed       : s.fatal ≠ none →
    s.pending = none ∨ ∃ (j : Nat) (d : DoeUnit), s.further[j]? = some d ∧ d.pending = none
  fatalVault          : ∀ d, s.fatal = some (.vaultWrite d) → s.kv.length ≤ d ∧ d < 8
  fatalCipher         : s.fatal = some .cipherFail → s.cfg.cipherFailures ≠ []

/-- The secret store holds zeros, as ClearSecrets leaves it (R181). -/
def SecretsCleared (s : State) : Prop := s.uds = zeros 48 ∧ s.doekey = zeros 32 ∧ s.fe = zeros 64

/-- The default platform around the DOE at DOE_BASE: no other peripheral is on the bus, it alone is polled, and the cipher does
not fail (D17, D24). -/
def DoeAlone (cfg : Config) : Prop := cfg.otherRegions = [] ∧ cfg.pollOrder = [.doe] ∧ cfg.cipherFailures = []

/-- A platform of DOEs only, any number of them and polled in any order: no other peripheral is on the bus or polled, and the
cipher does not fail (R224, D17, D24). -/
def OnlyDoes (cfg : Config) : Prop :=
  cfg.otherRegions = [] ∧ (∀ p, Poller.peripheral p ∉ cfg.pollOrder) ∧ cfg.cipherFailures = []

/-- The driver issues ADVANCE n for each n of the list, in order. -/
def advanceAll (ns : List Nat) (s : State) : Result := issueAll (ns.map scriptAdvance) s

/-- The operation the oldest request asks for, if there is one and it is a hardware request (R82, R91). -/
def headOperation (s : State) : Option Operation :=
  match s.requests with
  | .transaction key payload :: _ =>
    match parse key payload with
    | .operation op => some op
    | .rejected _ => none
  | _ => none

/-- Two states that differ at most in the secrets and the vault's contents: what the bus must not reveal (R188, R221). -/
def SameOnBus (s t : State) : Prop :=
  s.kv.length = t.kv.length ∧ s = { t with kv := s.kv, uds := s.uds, fe := s.fe, doekey := s.doekey }

/-- Two outcomes that tell the driver the same, with states the bus cannot tell apart. -/
def SameOutcome (a b : Result) : Prop :=
  match a, b with
  | .next s, .next t => SameOnBus s t
  | .fault f, .fault g => f = g
  | .refused r, .refused q => r = q
  | _, _ => False

end Sys2Proof.Machine
end

