-- ==== Sys2Proof/Certificates/Slice0/Obligations.lean ====
section
/-! DEFINITION. The statements for the provers. Each docstring names the rule of the spec it formalises; where a clause rests
on a decision of the spec's own (D<n>) or of the model (an assumption's number), the docstring says so. -/

open Sys2Proof Sys2Proof.Machine

/-! ## Encoding -/

/-- Decoding an instruction's encoding gives the instruction back, at every operand value (30_encoding.md; the key layout is
decision D15). -/
def Obligations.EncodeThenDecodeGivesInstruction : Prop :=
  ∀ i : Instr, decodeEncoded (encode i) = .row i

/-- The other direction: a transaction or CONTROL word that decodes to an instruction is that instruction's encoding, so no
bit is ignored (30_encoding.md; D15). -/
def Obligations.DecodedWordsReencode : Prop :=
  (∀ key payload i, decode key payload = .row i → encode i = .transaction key payload) ∧
  (∀ w, encode (decodeControl w) = .control w)

/-- No key matches two rows of the opcode map (R91 is a derived rule). -/
def Obligations.OpcodeRowsDoNotOverlap : Prop :=
  ∀ key, ∀ r ∈ tRows, ∀ q ∈ tRows, r.matchesKey key = true → q.matchesKey key = true → r = q

/-- Words written out from the spec's encodings (95_test_vectors.md ENC-13 to ENC-17, ENC-10) decode to what they stand
for. -/
def Obligations.SampleWordsDecode : Prop :=
  decode 0x20000000C .none = .row (.readIv 3) ∧
  decode 0x200000010 .none = .row .readControl ∧
  decode 0x600000004 (.data 0x07060504) = .row (.writeIv 1 0x07060504) ∧
  decode 0x600000010 (.data 0x9) = .row (.writeControl 0x9) ∧
  decode 0x800000000 (.ticks 1000) = .row (.advance 1000) ∧
  decodeControl 0xABCD0049 = .deobfuscateUds 2 false 0x2AF3401

/-- What is no hardware request is refused by name: OP = 11, ADVANCE with SZ or OFF not 0 (D15, D35), and a fetch (D19).
The refusal is the spec's treatment of a request the hardware cannot express. -/
def Obligations.ReservedRequestsAreRefused : Prop :=
  ∀ (s : State) (rest : List Request), s.fatal = none →
    (∀ key payload, s.requests = .transaction key payload :: rest → key.extractLsb' 34 2 = 3 →
      step s = .refused .reservedOp) ∧
    (∀ key payload, s.requests = .transaction key payload :: rest → key.extractLsb' 34 2 = 2 →
      (key.extractLsb' 32 2 ≠ 0 ∨ key.extractLsb' 0 32 ≠ 0) → step s = .refused .advanceFields) ∧
    (∀ addr, s.requests = .fetch addr :: rest → step s = .refused (.instructionFetch addr))

/-! ## Step and dispatch -/

/-- A step takes the oldest request and runs the instruction it decodes to; with no request it does nothing (R226; the
request list and the idle step are the model's, assumptions 1 and 5). -/
def Obligations.StepRunsDecodedRow : Prop :=
  (∀ (s : State) key payload rest i, s.fatal = none → s.requests = .transaction key payload :: rest →
    decode key payload = .row i → step s = exec i { s with requests := rest }) ∧
  (∀ s : State, s.fatal = none → s.requests = [] → step s = .next s)

/-- A fire performs the command that CONTROL holds when it fires, with the DEST CONTROL holds then (R178): the poll empties
the slot and runs the instruction the CONTROL word decodes to. -/
def Obligations.FireRunsCommandInControl : Prop :=
  ∀ (s : State) (t : Nat), s.fatal = none → s.pending = some t → t ≤ s.now →
    exec (decodeControl s.control) { s with pending := none } = .next (doePoll s)

/-- A READ or WRITE key at an address the DOE owns that matches no row faults, and nothing but the response changes (the
last sentence of R91, a derived rule). -/
def Obligations.UnmatchedDoeRequestFaults : Prop :=
  ∀ (s : State) key payload rest op, s.cfg.wf s.peripherals.length = true → s.fatal = none →
    s.requests = .transaction key payload :: rest → decode key payload = .unmatched op →
    s.cfg.doeBase.toNat ≤ (s.cfg.doeBase + key.extractLsb' 0 32).toNat →
    (s.cfg.doeBase + key.extractLsb' 0 32).toNat < s.cfg.doeBase.toNat + 0x14 →
    ∃ f, step s = .next { s with requests := rest, response := some (.fault f) }

/-! ## What each instruction does -/

/-- READ.IV k returns the four bytes iv[4k..4k+3] in the configured order and changes nothing else (R171; that IV can be
read is D7, the byte order is D6). -/
def Obligations.ReadIvReturnsStoredWord : Prop :=
  ∀ (s : State) (k : BitVec 2), s.cfg.wf s.peripherals.length = true → s.fatal = none →
    exec (.readIv k) s = .next { s with response := some (.value (
      match s.cfg.ivByteOrder with
      | .le => ivByte s.iv k 3 ++ ivByte s.iv k 2 ++ ivByte s.iv k 1 ++ ivByte s.iv k 0
      | .be => ivByte s.iv k 0 ++ ivByte s.iv k 1 ++ ivByte s.iv k 2 ++ ivByte s.iv k 3)) }

/-- READ.CONTROL returns all 32 bits of CONTROL and changes nothing else, FLOW_DONE included (R173, R63). Two clauses are the
spec's own choices: that bits 31:6 read as stored is decision D8 (U4, assumption 22), that a read is free of every effect is
decision D22. -/
def Obligations.ReadControlReturnsControl : Prop :=
  ∀ s : State, s.cfg.wf s.peripherals.length = true → s.fatal = none →
    exec .readControl s = .next { s with response := some (.value s.control) }

/-- WRITE.IV k, v replaces iv[4k..4k+3] by the bytes of v in the configured order (D6), every other byte of the buffer and
every other piece of state stays (R172, R64). -/
def Obligations.WriteIvReplacesOneWord : Prop :=
  ∀ (s : State) (k : BitVec 2) (v : Word), s.cfg.wf s.peripherals.length = true → s.fatal = none →
    ∃ iv' : Bytes 16, exec (.writeIv k v) s = .next { s with iv := iv', response := some .done } ∧
      ∀ (i : Nat) (h : i < 16), iv'[i] =
        if i / 4 = k.toNat then
          match s.cfg.ivByteOrder with
          | .le => v.extractLsb' (8 * (i % 4)) 8
          | .be => v.extractLsb' (24 - 8 * (i % 4)) 8
        else s.iv[i]

/-- WRITE.CONTROL with a non-Idle CMD stores the word with FLOW_DONE cleared and schedules the fire 1000 ticks ahead,
whatever was pending; nothing else changes (R174, R176). -/
def Obligations.WriteControlAcceptsCommand : Prop :=
  ∀ (s : State) (v : Word), s.cfg.wf s.peripherals.length = true → s.fatal = none → v.extractLsb' 0 2 ≠ 0 →
    exec (.writeControl v) s =
      .next { s with control := v &&& 0xFFFFFFDF, pending := some (s.now + 1000), response := some .done }

/-- WRITE.CONTROL with CMD = Idle stores the word, FLOW_DONE as written, schedules nothing and keeps any pending action
(R174, R175). -/
def Obligations.WriteControlIdleOnlyStores : Prop :=
  ∀ (s : State) (v : Word), s.cfg.wf s.peripherals.length = true → s.fatal = none → v.extractLsb' 0 2 = 0 →
    exec (.writeControl v) s = .next { s with control := v, response := some .done }

/-- ADVANCE n moves time by n and then runs the polls in order, stopping after a fatal one; it returns Ok() or
Stuck(Fatal) (R101). -/
def Obligations.AdvanceMovesTimeThenPolls : Prop :=
  (∀ (n : Nat) (s : State), s.fatal = none →
    ∃ u, pollAll s.cfg.pollOrder { s with now := s.now + n } = u ∧
      (u.fatal = none → exec (.advance n) s = .next { u with response := some .done }) ∧
      (∀ c, u.fatal = some c → exec (.advance n) s = .next { u with response := some (.stuck c) })) ∧
  (∀ s, pollAll [] s = s) ∧
  (∀ p ps s, (poll p s).fatal = none → pollAll (p :: ps) s = pollAll ps (poll p s)) ∧
  (∀ p ps s, (poll p s).fatal ≠ none → pollAll (p :: ps) s = poll p s)

/-- An ADVANCE that does not reach the pending action, or with none pending, changes only the time, where the DOE alone is
polled (R101, R107; the platform is that of 95_test_vectors.md "Conventions"). -/
def Obligations.AdvanceBeforeFireChangesOnlyTime : Prop :=
  ∀ (n : Nat) (s : State), s.fatal = none → s.cfg.pollOrder = [.doe] →
    (∀ t, s.pending = some t → s.now + n < t) →
    exec (.advance n) s = .next { s with now := s.now + n, response := some .done }

/-- IDLE at fire changes nothing but FLOW_DONE (R182, R183). -/
def Obligations.IdleFireSetsOnlyFlowDone : Prop :=
  ∀ (s : State) (d : BitVec 3) (f : Bool) (r : BitVec 26), s.fatal = none →
    exec (.idle d f r) s = .next { s with control := s.control ||| 0x20 }

/-- DEOBFUSCATE_UDS at fire writes the 48 bytes the cipher returns, padded with 16 zero bytes, into slot DEST, then sets
FLOW_DONE; nothing else changes (R179, R183). -/
def Obligations.DeobfuscateUdsWritesSlot : Prop :=
  ∀ (s : State) (d : BitVec 3) (f : Bool) (r : BitVec 26), s.fatal = none → d.toNat < s.kv.length →
    (⟨s.doekey, s.iv, s.uds.toList⟩ : CipherCall) ∉ s.cfg.cipherFailures →
    exec (.deobfuscateUds d f r) s = .next { s with
      kv := s.kv.set d.toNat (Config.aes256CbcPlaintext 3 s.doekey s.iv s.uds ++ zeros 16)
      control := s.control ||| 0x20 }

/-- DEOBFUSCATE_FE at fire writes the 64 bytes the cipher returns into slot DEST, then sets FLOW_DONE; nothing else changes
(R180, R183). -/
def Obligations.DeobfuscateFeWritesSlot : Prop :=
  ∀ (s : State) (d : BitVec 3) (f : Bool) (r : BitVec 26), s.fatal = none → d.toNat < s.kv.length →
    (⟨s.doekey, s.iv, s.fe.toList⟩ : CipherCall) ∉ s.cfg.cipherFailures →
    exec (.deobfuscateFe d f r) s = .next { s with
      kv := s.kv.set d.toNat (Config.aes256CbcPlaintext 4 s.doekey s.iv s.fe)
      control := s.control ||| 0x20 }

/-- CLEAR_SECRETS at fire zeroes the device secret, the deobfuscation key and the field entropy whatever DEST is, then sets
FLOW_DONE; nothing else changes (R181, R183). -/
def Obligations.ClearSecretsZeroesStore : Prop :=
  ∀ (s : State) (d : BitVec 3) (f : Bool) (r : BitVec 26), s.fatal = none →
    exec (.clearSecrets d f r) s = .next { s with
      uds := Vector.replicate 48 0, doekey := Vector.replicate 32 0, fe := Vector.replicate 64 0
      control := s.control ||| 0x20 }

/-- A decrypt fire ends in Fatal when DEST is no slot of the vault, and otherwise when the cipher fails; only the mark is
set, FLOW_DONE is not (R186; D11, D20). -/
def Obligations.DecryptFireCanGoFatal : Prop :=
  ∀ (s : State) (d : BitVec 3) (f : Bool) (r : BitVec 26), s.fatal = none →
    (s.kv.length ≤ d.toNat →
      exec (.deobfuscateUds d f r) s = .next { s with fatal := some (.vaultWrite d.toNat) } ∧
      exec (.deobfuscateFe d f r) s = .next { s with fatal := some (.vaultWrite d.toNat) }) ∧
    (d.toNat < s.kv.length → (⟨s.doekey, s.iv, s.uds.toList⟩ : CipherCall) ∈ s.cfg.cipherFailures →
      exec (.deobfuscateUds d f r) s = .next { s with fatal := some .cipherFail }) ∧
    (d.toNat < s.kv.length → (⟨s.doekey, s.iv, s.fe.toList⟩ : CipherCall) ∈ s.cfg.cipherFailures →
      exec (.deobfuscateFe d f r) s = .next { s with fatal := some .cipherFail })

/-- R189: a decrypt fire writes no slot but DEST and does not change the secret store; where it goes fatal it writes no slot
at all. -/
def Obligations.DecryptFireWritesOneSlot : Prop :=
  ∀ (s t : State) (d : BitVec 3) (f : Bool) (r : BitVec 26),
    (exec (.deobfuscateUds d f r) s = .next t ∨ exec (.deobfuscateFe d f r) s = .next t) →
    t.uds = s.uds ∧ t.fe = s.fe ∧ t.doekey = s.doekey ∧
    (∀ j, j ≠ d.toNat → t.readKey j = s.readKey j) ∧
    (t.fatal = none → d.toNat < s.kv.length ∧ ∃ b, t.kv = s.kv.set d.toNat b) ∧
    (t.fatal ≠ none → t.kv = s.kv)

/-- R183: after a fire, whatever the command, FLOW_DONE is set and every other CONTROL bit is unchanged, except that a fire
that ended in fatal changes no bit. -/
def Obligations.FireSetsFlowDoneUnlessFatal : Prop :=
  ∀ (s : State) (t : Nat), s.fatal = none → s.pending = some t → t ≤ s.now →
    ((doePoll s).fatal = none → ∀ i, (doePoll s).control.getLsbD i = (decide (i = 5) || s.control.getLsbD i)) ∧
    ((doePoll s).fatal ≠ none → (doePoll s).control = s.control)

/-! ## Fatal -/

/-- Once the fatal mark is set, no driver operation and no instruction has a step (R214, decision D20). -/
def Obligations.StuckMachineHasNoStep : Prop :=
  ∀ (s : State) (c : FatalInfo), s.fatal = some c →
    step s = .fault (.stuckFatal c) ∧ ∀ i, exec i s = .fault (.stuckFatal c)

/-- The ADVANCE in which the DOE's vault write fails returns Stuck(Fatal), sets the mark, leaves FLOW_DONE, and runs none of
the polls after the DOE's (R101, R186, R214; D11, D20). -/
def Obligations.FatalAdvanceStopsThePolls : Prop :=
  ∀ (n : Nat) (s : State) (t : Nat) (rest : List Poller), s.fatal = none → s.cfg.pollOrder = .doe :: rest →
    s.pending = some t → t ≤ s.now + n →
    (s.control.extractLsb' 0 2 = 1 ∨ s.control.extractLsb' 0 2 = 2) →
    s.kv.length ≤ (s.control.extractLsb' 2 3).toNat →
    exec (.advance n) s = .next { s with
      now := s.now + n
      pending := none
      fatal := some (.vaultWrite (s.control.extractLsb' 2 3).toNat)
      response := some (.stuck (.vaultWrite (s.control.extractLsb' 2 3).toNat)) }

/-! ## The timer -/

/-- R103: `schedule(n) = some (now + n)`; with n = 0 the action fires at the next poll; the command accept stores
`schedule(1000)` in the DOE's slot, whatever it held. -/
def Obligations.ScheduleGivesNowPlusN : Prop :=
  (∀ now n, schedule now n = some (now + n)) ∧
  (∀ now later, now ≤ later → fired later (schedule now 0) = (true, none)) ∧
  (∀ (s t : State) (v : Word), s.cfg.wf s.peripherals.length = true → v.extractLsb' 0 2 ≠ 0 →
    exec (.writeControl v) s = .next t → t.pending = schedule s.now 1000)

/-- R104: `fired` is true, and empties the slot, exactly when the slot's time is reached; an emptied slot is not fired. -/
def Obligations.FiredOnceFromItsTimeOn : Prop :=
  (∀ now t, t ≤ now → fired now (some t) = (true, none)) ∧
  (∀ now t, now < t → fired now (some t) = (false, some t)) ∧
  (∀ now, fired now none = (false, none))

/-- R107: a poll whose action has not fired changes no state, and a consumed action never fires again: a second poll, with no
command in between, changes nothing. -/
def Obligations.PollIsIdempotent : Prop :=
  (∀ s, (fired s.now s.pending).1 = false → doePoll s = s) ∧
  (∀ s, doePoll (doePoll s) = doePoll s) ∧
  (∀ s n, (fired s.now s.pending).1 = true →
    doePoll { doePoll s with now := (doePoll s).now + n } = { doePoll s with now := (doePoll s).now + n })

/-- R105: scheduling a second action replaces the first. There is one slot; two accepts leave the second's time only. -/
def Obligations.SecondCommandReplacesFirst : Prop :=
  ∀ (s t u : State) (v w : Word) (n : Nat), s.cfg.wf s.peripherals.length = true →
    v.extractLsb' 0 2 ≠ 0 → w.extractLsb' 0 2 ≠ 0 →
    exec (.writeControl v) s = .next t → exec (.writeControl w) { t with now := t.now + n } = .next u →
    u.pending = some (s.now + n + 1000)

/-- R69: within one ADVANCE the polls run in the order of POLL_ORDER, each on the state the earlier ones left, as long as none
of them was fatal. -/
def Obligations.PollsRunInOrder : Prop :=
  (∀ s, pollAll [] s = s) ∧
  (∀ (n : Nat) (s u : State) (ps qs : List Poller) (p : Poller), s.fatal = none → s.cfg.pollOrder = ps ++ p :: qs →
    (pollAll ps { s with now := s.now + n }).fatal = none →
    u = poll p (pollAll ps { s with now := s.now + n }) → u.fatal = none →
    exec (.advance n) s = .next ((pollAll qs u).respond (advanceResponse (pollAll qs u))))

/-! ## The bus -/

/-- R128: a faulted access changes no state; its fault is returned to the caller. -/
def Obligations.FaultedAccessChangesNothing : Prop :=
  ∀ (s : State) (size : AccessSize) (addr v : Word), s.fatal = none →
    (∀ f, check s.cfg .read size addr = .error f →
      busRead size addr s = .next { s with response := some (.fault f) }) ∧
    (∀ f, check s.cfg .write size addr = .error f →
      busWrite size addr v s = .next { s with response := some (.fault f) })

/-- R55: an access to an address no region owns fails with AccessFault and changes no state. -/
def Obligations.UnownedAddressIsAccessFault : Prop :=
  ∀ (s : State) (size : AccessSize) (addr v : Word), s.fatal = none →
    (∀ r ∈ regionTable s.cfg, ¬ (r.base ≤ addr.toNat ∧ addr.toNat < r.base + r.len)) →
    busRead size addr s = .next { s with response := some (.fault ⟨.access, .read, size, addr⟩) } ∧
    busWrite size addr v s = .next { s with response := some (.fault ⟨.access, .write, size, addr⟩) }

/-- R59: a misaligned or wrong-size access faults before it reaches a handler and changes no state. -/
def Obligations.BadAccessNeverReachesHandler : Prop :=
  ∀ (s : State) (size : AccessSize) (addr v : Word) (r : Region), s.fatal = none → owner s.cfg addr = some r →
    (sizeBytes size ≠ some r.gran ∨ addr.toNat % r.gran ≠ 0) →
    (∃ f, busRead size addr s = .next { s with response := some (.fault f) }) ∧
    (∃ f, busWrite size addr v s = .next { s with response := some (.fault f) })

/-- The first failing check is the one reported: no owner, invalid size, misaligned, wrong granularity, past the end (R121,
R217: the order is decision D5; the kind of a wrong size is the switch of D4). -/
def Obligations.FirstFailingCheckIsReported : Prop :=
  ∀ (cfg : Config) (op : AccessKind) (size : AccessSize) (addr : Word),
    (owner cfg addr = none → check cfg op size addr = .error ⟨.access, op, size, addr⟩) ∧
    (∀ r, owner cfg addr = some r →
      (sizeBytes size = none → check cfg op size addr = .error ⟨cfg.sizeMismatchFault, op, size, addr⟩) ∧
      (∀ n, sizeBytes size = some n →
        (addr.toNat % n ≠ 0 → check cfg op size addr = .error ⟨.misaligned, op, size, addr⟩) ∧
        (addr.toNat % n = 0 →
          (n ≠ r.gran → check cfg op size addr = .error ⟨cfg.sizeMismatchFault, op, size, addr⟩) ∧
          (n = r.gran →
            (r.base + r.len < addr.toNat + n → check cfg op size addr = .error ⟨.access, op, size, addr⟩) ∧
            (addr.toNat + n ≤ r.base + r.len → check cfg op size addr = .ok r)))))

/-- R58: an access to an address of a DOE, of the one at DOE_BASE or of a further one, passes the checks exactly if its size
is a word and its address is a multiple of 4; an access to any region passes only with the region's granularity and an
address that is a multiple of it. -/
def Obligations.DoeAccessNeedsAlignedWord : Prop :=
  (∀ (n : Nat) (cfg : Config) (op : AccessKind) (size : AccessSize) (addr b : Word), cfg.wf n = true →
    b ∈ cfg.doeBase :: cfg.furtherBases → b.toNat ≤ addr.toNat → addr.toNat < b.toNat + 0x14 →
    ((∃ r, check cfg op size addr = .ok r) ↔ size = .word ∧ addr.toNat % 4 = 0)) ∧
  (∀ (cfg : Config) (op : AccessKind) (size : AccessSize) (addr : Word) (r : Region),
    check cfg op size addr = .ok r → sizeBytes size = some r.gran ∧ addr.toNat % r.gran = 0)

/-- R131: a successful WRITE changes exactly the IV word, CONTROL (with that DOE's own slot) or peripheral it targets, and
nothing else; of a further DOE, only that DOE's registers. The bytes of the IV word lie at the request's address; what CONTROL
becomes is said by the WRITE.CONTROL statements and, of a further DOE, by FurtherDoeRegistersAreItsOwn. -/
def Obligations.SuccessfulWriteChangesOnlyItsTarget : Prop :=
  ∀ (s : State) (size : AccessSize) (addr v : Word) (r : Region), s.fatal = none →
    s.cfg.wf s.peripherals.length = true → check s.cfg .write size addr = .ok r →
    ∃ t, busWrite size addr v s = .next t ∧
      match r.handler with
      | .doeIv =>
        t = { s with iv := t.iv, response := some .done } ∧
          ∀ (i : Nat) (h : i < 16), t.iv[i] =
            if s.cfg.doeBase.toNat + i < addr.toNat ∨ addr.toNat + 4 ≤ s.cfg.doeBase.toNat + i then s.iv[i]
            else wordByte s.cfg.ivByteOrder v ⟨i % 4, Nat.mod_lt _ (by decide)⟩
      | .doeControl =>
        t = { s with control := t.control, pending := t.pending, response := some .done }
      | .furtherIv j => ∀ d, s.further[j]? = some d →
        ∃ b e, s.cfg.furtherBases[j]? = some b ∧ e.control = d.control ∧ e.pending = d.pending ∧
          t = { s with further := s.further.set j e, response := some .done } ∧
          ∀ (i : Nat) (h : i < 16), e.iv[i] =
            if b.toNat + i < addr.toNat ∨ addr.toNat + 4 ≤ b.toNat + i then d.iv[i]
            else wordByte s.cfg.ivByteOrder v ⟨i % 4, Nat.mod_lt _ (by decide)⟩
      | .furtherControl j => ∀ d, s.further[j]? = some d →
        ∃ e, e.iv = d.iv ∧ t = { s with further := s.further.set j e, response := some .done }
      | .peripheral p _ => ∃ x, t = { s with peripherals := s.peripherals.set p x, response := some .done }

/-- No READ has a side effect: a step that serves a READ changes the response only (R63; that reads are free of every effect is
decision D22). -/
def Obligations.ReadsChangeOnlyTheResponse : Prop :=
  ∀ (s t : State) (rest : List Request) key, s.requests = .transaction key .none :: rest → step s = .next t →
    t = { s with requests := rest, response := t.response }

/-- An IV word reads back as written under either byte order, and the other words keep their values (R56, R97; the order is
decision D6). -/
def Obligations.IvWordsReadBackAndStayApart : Prop :=
  ∀ (o : ByteOrder) (iv : Bytes 16) (k l : BitVec 2) (w : Word),
    ivWord o (setIvWord o iv k w) l = if l = k then w else ivWord o iv l

/-- Repeating a WRITE with no ADVANCE in between leaves the same state (R65, a derived rule). -/
def Obligations.RepeatedWriteLeavesSameState : Prop :=
  ∀ (s t : State) (k : BitVec 2) (v : Word), s.cfg.wf s.peripherals.length = true →
    (exec (.writeIv k v) s = .next t → exec (.writeIv k v) t = .next t) ∧
    (exec (.writeControl v) s = .next t → exec (.writeControl v) t = .next t)

/-- For a region of power-of-two length with a base that is a multiple of it, ownership by range is the same as
`(a & ~access_mask) = base` (R54, decision D13). -/
def Obligations.AccessMaskNamesOffsetBits : Prop :=
  ∀ (r : Region) (e : Nat) (a : Word), r.len = 2 ^ e → e ≤ 32 → r.base % r.len = 0 → r.base + r.len ≤ 2 ^ 32 →
    (owns r a.toNat = true ↔ a &&& ~~~BitVec.ofNat 32 (accessMask r) = BitVec.ofNat 32 r.base)

/-! ## The register file -/

/-- R153: FieldGet is the field's bits as a number below 2^w, and bits outside the field never affect it. -/
def Obligations.FieldGetReadsOnlyItsField : Prop :=
  ∀ (M : Type) (f : RegField M) (raw raw' : Word), f.off + f.width ≤ 32 →
    (fieldGet raw f).toNat = raw.toNat / 2 ^ f.off % 2 ^ f.width ∧
    ((∀ i, f.off ≤ i → i < f.off + f.width → raw.getLsbD i = raw'.getLsbD i) → fieldGet raw f = fieldGet raw' f)

/-- FieldSet rejects a value that is too wide (D23); else the field reads as the value, the bits outside it are preserved, and
setting the value the field holds changes nothing (R154). -/
def Obligations.FieldSetReplacesOnlyItsField : Prop :=
  ∀ (M : Type) (f : RegField M) (raw : Word) (v : Nat), f.off + f.width ≤ 32 →
    (2 ^ f.width ≤ v → fieldSet raw f v = none) ∧
    (v < 2 ^ f.width → ∃ w, fieldSet raw f v = some w ∧ (fieldGet w f).toNat = v ∧
      ∀ i, (i < f.off ∨ f.off + f.width ≤ i) → w.getLsbD i = raw.getLsbD i) ∧
    fieldSet raw f (fieldGet raw f).toNat = some raw

/-- R155: EnumGet is the member whose pattern the field holds, none if no member has it or the field has no members, and
always a member for CMD. -/
def Obligations.EnumGetNeverInventsMember : Prop :=
  (∀ (M : Type) [DecidableEq M] (f : RegField M) (raw : Word) (m : M), f.wf = true →
    (enumGet raw f = some m ↔ ∃ l, f.legal = some l ∧ (m, (fieldGet raw f).toNat) ∈ l)) ∧
  (∀ raw, enumGet raw cmdField ≠ none)

/-- R156: EnumSet of a member is FieldSet of its pattern, which the field then reads back as that member; any other value
is rejected. -/
def Obligations.EnumSetWritesMembersOnly : Prop :=
  ∀ (M : Type) [DecidableEq M] (f : RegField M) (raw : Word) (m : M), f.wf = true →
    (∀ l p, f.legal = some l → (m, p) ∈ l →
      enumSet raw f m = fieldSet raw f p ∧ ∃ w, enumSet raw f m = some w ∧ enumGet w f = some m) ∧
    ((∀ l p, f.legal = some l → (m, p) ∉ l) → enumSet raw f m = none)

/-- R157: Compose is the OR of the shifted values, is rejected exactly if a value is too wide or two fields overlap, leaves
fields that are not listed 0, and does not depend on the order of the list. -/
def Obligations.ComposeOrderDoesNotMatter : Prop :=
  ∀ (M : Type) (ps qs : List (RegField M × Nat)), ps.Perm qs →
    compose ps = compose qs ∧
    (compose ps = none ↔ (∃ p ∈ ps, 2 ^ p.1.width ≤ p.2) ∨
      ¬ (ps.map (·.1)).Pairwise fun f g => f.overlap g = false) ∧
    (∀ w, compose ps = some w →
      w = (ps.map fun p => BitVec.ofNat 32 p.2 <<< p.1.off).foldr (· ||| ·) 0 ∧
      ∀ i, (∀ p ∈ ps, ¬ (p.1.off ≤ i ∧ i < p.1.off + p.1.width)) → w.getLsbD i = false)

/-- The order of the pairs of a Modify does not change its result, for fields that share no bit (R158, a derived rule). -/
def Obligations.ModifyOrderDoesNotMatter : Prop :=
  ∀ (M : Type) (raw : Word) (ps qs : List (RegField M × Nat)), ps.Perm qs →
    (∀ p ∈ ps, p.1.off + p.1.width ≤ 32) → Layout.disjoint (ps.map (·.1)) = true →
    modifyWord raw ps = modifyWord raw qs

/-- The command encoder is the composition of its fields, and the register file reads back from it what was put in (R86, R90,
R160; R90 is a derived rule). -/
def Obligations.EncoderIsComposition : Prop :=
  ∀ (c : Cmd) (d : BitVec 3) (f : Bool) (r : BitVec 26),
    compose [(cmdField, (cmdBits c).toNat), (destField, d.toNat), (flowDoneField, f.toNat)] =
      some (encodeControl c d f 0) ∧
    enumGet (encodeControl c d f r) cmdField = some c ∧
    (fieldGet (encodeControl c d f r) destField).toNat = d.toNat ∧
    (fieldGet (encodeControl c d f r) flowDoneField).toNat = f.toNat ∧
    (encodeControl c d f r).extractLsb' 6 26 = r

/-! ## The DOE's state machine -/

/-- The transitions of the abstract DOE state on accesses to CONTROL and on ADVANCE, the DOE alone being polled (R34, R187,
both derived rules). -/
def Obligations.DoeStateTransitions : Prop :=
  ∀ (s t : State) (v : Word) (n : Nat), s.cfg.wf s.peripherals.length = true → s.cfg.pollOrder = [.doe] →
    (exec (.writeControl v) s = .next t → v.extractLsb' 0 2 ≠ 0 → doeState t = .commandAccepted) ∧
    (exec (.writeControl v) s = .next t → v.extractLsb' 0 2 = 0 →
      doeState t =
        if doeState s = .commandAccepted then .commandAccepted
        else if v.getLsbD 5 then .completed else .idle) ∧
    (exec (.advance n) s = .next t → t.fatal = none → (∃ a, s.pending = some a ∧ a ≤ s.now + n) →
      doeState t = .completed) ∧
    (exec (.advance n) s = .next t → (∀ a, s.pending = some a → s.now + n < a) → doeState t = doeState s)

/-- An Idle write over a pending command turns its fire into a no-op that only sets FLOW_DONE (R175, a derived rule). -/
def Obligations.IdleWriteMakesFireNoop : Prop :=
  ∀ (s t u : State) (v w : Word) (n : Nat), s.cfg.wf s.peripherals.length = true → s.fatal = none →
    s.cfg.pollOrder = [.doe] → v.extractLsb' 0 2 ≠ 0 → w.extractLsb' 0 2 = 0 → 1000 ≤ n →
    exec (.writeControl v) s = .next t → exec (.writeControl w) t = .next u →
    exec (.advance n) u =
      .next { s with now := s.now + n, control := w ||| 0x20, pending := none, response := some .done }

/-- R184: the decrypts read the IV at fire time. An IV word written between the accept and the fire is the one they use; the
IV is not copied at the accept. The plaintext is a free value of the cipher's three arguments. -/
def Obligations.DecryptUsesIvOfFireTime : Prop :=
  ∀ (s t u : State) (d : BitVec 3) (k : BitVec 2) (w : Word), s.cfg.wf s.peripherals.length = true → s.fatal = none →
    DoeAlone s.cfg → d.toNat < s.kv.length →
    (exec (.writeControl (encodeControl .deobfuscateUds d false 0)) s = .next t → exec (.writeIv k w) t = .next u →
      ∃ x, exec (.advance 1000) u = .next x ∧
        x.readKey d.toNat =
          some (Config.aes256CbcPlaintext 3 s.doekey (setIvWord s.cfg.ivByteOrder s.iv k w) s.uds ++ zeros 16)) ∧
    (exec (.writeControl (encodeControl .deobfuscateFe d false 0)) s = .next t → exec (.writeIv k w) t = .next u →
      ∃ x, exec (.advance 1000) u = .next x ∧
        x.readKey d.toNat =
          some (Config.aes256CbcPlaintext 4 s.doekey (setIvWord s.cfg.ivByteOrder s.iv k w) s.fe))

/-! ## Whole-machine statements -/

/-- Who writes each piece of state (R41, a derived rule): a READ only the response; a WRITE neither time nor vault nor secret
store nor mark; an ADVANCE neither the IV nor, in CONTROL, anything but FLOW_DONE, of no DOE. The configuration, KV_SLOTS and the
number of DOEs never change. -/
def Obligations.EachStateHasItsWriters : Prop :=
  ∀ (s t : State) (r : Request) (rest : List Request), s.requests = r :: rest → step s = .next t →
    t.requests = rest ∧ t.cfg = s.cfg ∧ t.kv.length = s.kv.length ∧ t.peripherals.length = s.peripherals.length ∧
    t.further.length = s.further.length ∧
    match headOperation s with
    | some (.read _ _) => t = { s with requests := rest, response := t.response }
    | some (.write _ _ _) =>
      t.now = s.now ∧ t.kv = s.kv ∧ t.uds = s.uds ∧ t.fe = s.fe ∧ t.doekey = s.doekey ∧ t.fatal = s.fatal
    | some (.advance n) =>
      t.now = s.now + n ∧ t.iv = s.iv ∧ (t.control = s.control ∨ t.control = s.control ||| 0x20) ∧
        (t.pending = s.pending ∨ t.pending = none) ∧
        ∀ (j : Nat) d, s.further[j]? = some d → ∃ e, t.further[j]? = some e ∧ e.iv = d.iv ∧
          (e.control = d.control ∨ e.control = d.control ||| 0x20) ∧ (e.pending = d.pending ∨ e.pending = none)
    | none => False

/-- Other peripherals cannot touch the DOE, the vault or the secret store: neither a poll of theirs nor an access to a
region of theirs changes anything but their own state and the response (R134; the premise D17, assumption 13). -/
def Obligations.OtherPeripheralsStayApart : Prop :=
  (∀ (p : Nat) (s : State), ∃ x, poll (.peripheral p) s = { s with peripherals := s.peripherals.set p x }) ∧
  (∀ (s t : State) (size : AccessSize) (addr v : Word) (r : Region) (p j : Nat),
    owner s.cfg addr = some r → r.handler = .peripheral p j → busWrite size addr v s = .next t →
    ∃ x, t = { s with peripherals := s.peripherals.set p x, response := t.response })

/-- The clear is irreversible: no step makes a cleared secret non-zero again (R181, R41). -/
def Obligations.SecretsStayCleared : Prop :=
  ∀ s t : State, SecretsCleared s → step s = .next t → SecretsCleared t

/-- Every step keeps the machine's invariant. -/
def Obligations.StepKeepsInvariant : Prop :=
  ∀ s t : State, MachineInv s → step s = .next t → MachineInv t

/-- The invariant holds after construction from any well-formed parameters, and at reset. -/
def Obligations.ConstructionMeetsInvariant : Prop :=
  (∀ p : Params, p.wf = true → MachineInv (.built p)) ∧ MachineInv State.reset

/-- What construction leaves: the spec's values (R23, R25, R31, R33, R39, R240: zeros by decision D9), the parameters'
contents (D25), and the abstract state Idle; an ill-formed configuration is refused (R52, D13). -/
def Obligations.ConstructionLeavesResetValues : Prop :=
  (∀ (p : Params) (s : State), State.construct p = .ok s →
    s.now = 0 ∧ s.iv = Vector.replicate 16 0 ∧ s.control = 0 ∧ s.pending = none ∧ s.fatal = none ∧
    s.kv = p.kv0 ∧ s.uds = p.uds0 ∧ s.fe = p.fe0 ∧ s.doekey = p.doekey0 ∧ s.cfg = p.cfg ∧ doeState s = .idle ∧
    s.further = p.cfg.furtherBases.map fun _ => ⟨Vector.replicate 16 0, 0, none⟩) ∧
  (∀ p : Params, Region.disjoint (regionTable p.cfg) = false → State.construct p = .error .illFormedConfig)

/-- What the driver sees through the bus does not depend on the secrets or the vault's contents, where only DOEs are on the bus,
any number of them, and the cipher does not fail (R188, R221, R224). -/
def Obligations.BusCannotObserveSecrets : Prop :=
  ∀ s t : State, OnlyDoes s.cfg → SameOnBus s t → SameOutcome (step s) (step t)

/-- For a command accepted with none outstanding and not overwritten, FLOW_DONE is 0 after ADVANCEs of less than 1000 ticks
in total and 1 after ADVANCEs of 1000 or more, whatever their sizes (R108, R252, both derived rules; the premises of C8
and D17). -/
def Obligations.CommandCompletesAfterLatency : Prop :=
  ∀ (s t : State) (v : Word) (ns : List Nat), MachineInv s → DoeAlone s.cfg → 8 ≤ s.kv.length → s.pending = none →
    v.extractLsb' 0 2 ≠ 0 → exec (.writeControl v) s = .next t →
    ∃ u, advanceAll ns t = .next u ∧ u.now = s.now + ns.sum ∧ flowDone u.control = decide (1000 ≤ ns.sum)

/-- `WAITDONE k` after an accept ends after ⌈1000 / k⌉ rounds; with nothing pending and FLOW_DONE = 0 it never ends (R96,
R247, a derived rule). -/
def Obligations.WaitDoneRoundsAreBounded : Prop :=
  (∀ (s t : State) (v : Word) (k fuel : Nat), MachineInv s → DoeAlone s.cfg → 8 ≤ s.kv.length → s.pending = none →
    v.extractLsb' 0 2 ≠ 0 → exec (.writeControl v) s = .next t → 1 ≤ k → (1000 + k - 1) / k ≤ fuel →
    ∃ u, waitDone k fuel t = some ((1000 + k - 1) / k, u)) ∧
  (∀ (s : State) (k fuel : Nat), MachineInv s → DoeAlone s.cfg → s.pending = none → flowDone s.control = false →
    waitDone k fuel s = none)

/-! ## Further DOEs on the bus -/

/-- A further DOE has its own registers at its own base: an access there reads and writes its IV, CONTROL and timer slot as
R171 to R175 say, and no other DOE's (R224; that it has a base of its own is assumption 28; byte order, IV readback and bits
31:6 are the decisions D6, D7, D8). -/
def Obligations.FurtherDoeRegistersAreItsOwn : Prop :=
  ∀ (s : State) (j : Nat) (b : Word) (d : DoeUnit) (k : BitVec 2) (v : Word), s.cfg.wf s.peripherals.length = true →
    s.fatal = none → s.cfg.furtherBases[j]? = some b → s.further[j]? = some d →
    busRead .word (b + ivOffset k) s = .next { s with response := some (.value (ivWord s.cfg.ivByteOrder d.iv k)) } ∧
    busRead .word (b + controlOffset) s = .next { s with response := some (.value d.control) } ∧
    busWrite .word (b + ivOffset k) v s = .next { s with
      further := s.further.set j { d with iv := setIvWord s.cfg.ivByteOrder d.iv k v }
      response := some .done } ∧
    (v.extractLsb' 0 2 ≠ 0 → busWrite .word (b + controlOffset) v s = .next { s with
      further := s.further.set j { d with control := v &&& 0xFFFFFFDF, pending := some (s.now + 1000) }
      response := some .done }) ∧
    (v.extractLsb' 0 2 = 0 → busWrite .word (b + controlOffset) v s = .next { s with
      further := s.further.set j { d with control := v }
      response := some .done })

/-- The poll of a further DOE is the DOE's poll on that DOE's registers; the clock, the vault, the secret store and the fatal mark
are the shared ones, and no other DOE's registers change. So a field-entropy command that a further DOE fires in an ADVANCE
writes the one vault, from that DOE's IV (R224). -/
def Obligations.FurtherDoePollsShareTheVault : Prop :=
  (∀ (s u : State) (j : Nat) (d : DoeUnit), s.further[j]? = some d →
    doePoll { s with iv := d.iv, control := d.control, pending := d.pending } = u →
    poll (.furtherDoe j) s = { s with
      kv := u.kv, uds := u.uds, fe := u.fe, doekey := u.doekey, fatal := u.fatal
      further := s.further.set j ⟨u.iv, u.control, u.pending⟩ }) ∧
  (∀ (s : State) (n j a : Nat) (d : DoeUnit) (dest : BitVec 3), s.fatal = none → s.cfg.pollOrder = [.furtherDoe j] →
    s.further[j]? = some d → d.pending = some a → a ≤ s.now + n → d.control = encodeControl .deobfuscateFe dest false 0 →
    dest.toNat < s.kv.length → (⟨s.doekey, d.iv, s.fe.toList⟩ : CipherCall) ∉ s.cfg.cipherFailures →
    exec (.advance n) s = .next { s with
      now := s.now + n
      kv := s.kv.set dest.toNat (Config.aes256CbcPlaintext 4 s.doekey d.iv s.fe)
      further := s.further.set j ⟨d.iv, encodeControl .deobfuscateFe dest true 0, none⟩
      response := some .done })
end

