-- ==== Sys2Proof/Laws/Fields.lean ====
section
/-! SUPPORT. The register file's operations bit by bit, and what they are on the CONTROL layout. -/

namespace Sys2Proof.Machine

/-- Bit i of `2^w - 1` is set iff i < w. -/
theorem getLsbD_ones {w i : Nat} (hw : w ≤ 32) :
    (BitVec.ofNat 32 (2 ^ w - 1)).getLsbD i = decide (i < w) := by
  rw [BitVec.getLsbD_ofNat, Nat.testBit_two_pow_sub_one]
  by_cases h : i < w
  · simp [h]; omega
  · simp [h]

/-- Bit i of a field's value (R153). -/
theorem fieldGet_getLsbD {M : Type} (raw : Word) (f : RegField M) (hw : f.width ≤ 32) (i : Nat) :
    (fieldGet raw f).getLsbD i = (decide (i < f.width) && raw.getLsbD (f.off + i)) := by
  simp only [fieldGet, BitVec.getLsbD_and, BitVec.getLsbD_ushiftRight, getLsbD_ones hw]
  exact Bool.and_comm ..

/-- Bit i of a field's mask (R152). -/
theorem fieldMask_getLsbD {M : Type} (f : RegField M) (hw : f.off + f.width ≤ 32) (i : Nat) :
    (fieldMask f).getLsbD i = (decide (f.off ≤ i) && decide (i < f.off + f.width)) := by
  simp only [fieldMask, BitVec.getLsbD_shiftLeft, getLsbD_ones (w := f.width) (by omega)]
  by_cases h1 : i < f.off
  · simp [h1]
  · by_cases h2 : i < f.off + f.width
    · have : i < 32 := by omega
      have : i - f.off < f.width := by omega
      simp [*]; omega
    · have : ¬ i - f.off < f.width := by omega
      simp [*]

/-- A field's value is below `2^w` (R153). -/
theorem fieldGet_toNat_lt {M : Type} (raw : Word) (f : RegField M) (hw : f.width ≤ 32) :
    (fieldGet raw f).toNat < 2 ^ f.width := by
  have h : 2 ^ f.width ≤ 2 ^ 32 := Nat.pow_le_pow_right (by omega) hw
  have hp : 0 < 2 ^ f.width := Nat.two_pow_pos _
  have : (fieldGet raw f).toNat ≤ 2 ^ f.width - 1 := by
    simp only [fieldGet, BitVec.toNat_and, BitVec.toNat_ofNat]
    rw [Nat.mod_eq_of_lt (by omega)]
    exact Nat.and_le_right
  omega

/-- FLOW_DONE set: CONTROL with bit 5 on (R183). -/
theorem setFlowDone_eq (w : Word) : setFlowDone w = w ||| 0x20 := by
  have h : setFlowDone w = (w &&& ~~~fieldMask flowDoneField) ||| (BitVec.ofNat 32 1 <<< 5) := rfl
  rw [h, show ~~~fieldMask flowDoneField = 0xFFFFFFDF#32 by decide, show (BitVec.ofNat 32 1 <<< 5) = 0x20#32 by decide]
  apply BitVec.eq_of_getLsbD_eq
  intro i hi
  simp only [BitVec.getLsbD_or, BitVec.getLsbD_and]
  rcases eq_or_ne i 5 with rfl | h5
  · simp
  · have : (0xFFFFFFDF#32).getLsbD i = true := by
      revert hi h5; revert i; decide
    simp [this]

/-- FLOW_DONE cleared: CONTROL with bit 5 off (R174). -/
theorem clearFlowDone_eq (w : Word) : clearFlowDone w = w &&& 0xFFFFFFDF := by
  have h : clearFlowDone w = (w &&& ~~~fieldMask flowDoneField) ||| (BitVec.ofNat 32 0 <<< 5) := rfl
  rw [h, show ~~~fieldMask flowDoneField = 0xFFFFFFDF#32 by decide, show (BitVec.ofNat 32 0 <<< 5) = 0#32 by decide]
  simp

@[simp] theorem flowDone_set (w : Word) : flowDone (setFlowDone w) = true := by
  simp [flowDone, setFlowDone_eq]

@[simp] theorem flowDone_clear (w : Word) : flowDone (clearFlowDone w) = false := by
  simp [flowDone, clearFlowDone_eq]

/-- The CMD field's value is CONTROL[1:0] (R86). -/
theorem cmdField_toNat (w : Word) : (fieldGet w cmdField).toNat = (w.extractLsb' 0 2).toNat := by
  simp [fieldGet, cmdField]
  exact Nat.and_two_pow_sub_one_eq_mod w.toNat 2

/-- The DEST field's value is CONTROL[4:2] (R86). -/
theorem controlDest_eq (w : Word) : controlDest w = (w.extractLsb' 2 3).toNat := by
  simp [controlDest, fieldGet, destField]
  exact Nat.and_two_pow_sub_one_eq_mod (w.toNat >>> 2) 3

/-- DEST is below 8 (R88). -/
theorem controlDest_lt (w : Word) : controlDest w < 8 := by
  rw [controlDest_eq]; exact (w.extractLsb' 2 3).isLt

/-- Every CMD pattern is a member (R155, R160). -/
theorem controlCmd_eq (w : Word) : controlCmd w = some (cmdOfBits (w.extractLsb' 0 2)) := by
  have h := cmdField_toNat w
  have key : ∀ c : BitVec 2, (([(Cmd.idle, 0), (.deobfuscateUds, 1), (.deobfuscateFe, 2), (.clearSecrets, 3)] :
      List (Cmd × Nat)).find? fun p => p.2 == c.toNat).map (·.1) = some (cmdOfBits c) := by decide
  have : controlCmd w = (([(Cmd.idle, 0), (.deobfuscateUds, 1), (.deobfuscateFe, 2), (.clearSecrets, 3)] :
      List (Cmd × Nat)).find? fun p => p.2 == (fieldGet w cmdField).toNat).map (·.1) := rfl
  rw [this, h, key]

/-- CMD is Idle iff CONTROL[1:0] = 00 (R87). -/
theorem controlCmd_idle_iff (w : Word) : controlCmd w = some .idle ↔ w.extractLsb' 0 2 = 0 := by
  rw [controlCmd_eq]
  have : ∀ c : BitVec 2, some (cmdOfBits c) = some Cmd.idle ↔ c = 0 := by decide
  exact this _

end Sys2Proof.Machine
end

