-- ==== Sys2Proof/Laws/State.lean ====
section
/-! SUPPORT. One lemma per field per named update of State, each true by rfl, so that no proof unfolds an update. -/

namespace Sys2Proof.Machine

variable (s : State)

@[simp] theorem State.respond_now (r : Response) : (s.respond r).now = s.now := rfl
@[simp] theorem State.respond_iv (r : Response) : (s.respond r).iv = s.iv := rfl
@[simp] theorem State.respond_control (r : Response) : (s.respond r).control = s.control := rfl
@[simp] theorem State.respond_pending (r : Response) : (s.respond r).pending = s.pending := rfl
@[simp] theorem State.respond_kv (r : Response) : (s.respond r).kv = s.kv := rfl
@[simp] theorem State.respond_uds (r : Response) : (s.respond r).uds = s.uds := rfl
@[simp] theorem State.respond_fe (r : Response) : (s.respond r).fe = s.fe := rfl
@[simp] theorem State.respond_doekey (r : Response) : (s.respond r).doekey = s.doekey := rfl
@[simp] theorem State.respond_fatal (r : Response) : (s.respond r).fatal = s.fatal := rfl
@[simp] theorem State.respond_further (r : Response) : (s.respond r).further = s.further := rfl
@[simp] theorem State.respond_cfg (r : Response) : (s.respond r).cfg = s.cfg := rfl
@[simp] theorem State.respond_peripherals (r : Response) : (s.respond r).peripherals = s.peripherals := rfl
@[simp] theorem State.respond_requests (r : Response) : (s.respond r).requests = s.requests := rfl
@[simp] theorem State.respond_response (r : Response) : (s.respond r).response = some r := rfl

@[simp] theorem State.returnFault_now (f : BusFault) : (s.returnFault f).now = s.now := rfl
@[simp] theorem State.returnFault_iv (f : BusFault) : (s.returnFault f).iv = s.iv := rfl
@[simp] theorem State.returnFault_control (f : BusFault) : (s.returnFault f).control = s.control := rfl
@[simp] theorem State.returnFault_pending (f : BusFault) : (s.returnFault f).pending = s.pending := rfl
@[simp] theorem State.returnFault_kv (f : BusFault) : (s.returnFault f).kv = s.kv := rfl
@[simp] theorem State.returnFault_uds (f : BusFault) : (s.returnFault f).uds = s.uds := rfl
@[simp] theorem State.returnFault_fe (f : BusFault) : (s.returnFault f).fe = s.fe := rfl
@[simp] theorem State.returnFault_doekey (f : BusFault) : (s.returnFault f).doekey = s.doekey := rfl
@[simp] theorem State.returnFault_fatal (f : BusFault) : (s.returnFault f).fatal = s.fatal := rfl
@[simp] theorem State.returnFault_further (f : BusFault) : (s.returnFault f).further = s.further := rfl
@[simp] theorem State.returnFault_cfg (f : BusFault) : (s.returnFault f).cfg = s.cfg := rfl
@[simp] theorem State.returnFault_peripherals (f : BusFault) : (s.returnFault f).peripherals = s.peripherals := rfl
@[simp] theorem State.returnFault_requests (f : BusFault) : (s.returnFault f).requests = s.requests := rfl
@[simp] theorem State.returnFault_response (f : BusFault) : (s.returnFault f).response = some (.fault f) := rfl

@[simp] theorem State.goFatal_now (c : FatalInfo) : (s.goFatal c).now = s.now := rfl
@[simp] theorem State.goFatal_iv (c : FatalInfo) : (s.goFatal c).iv = s.iv := rfl
@[simp] theorem State.goFatal_control (c : FatalInfo) : (s.goFatal c).control = s.control := rfl
@[simp] theorem State.goFatal_pending (c : FatalInfo) : (s.goFatal c).pending = s.pending := rfl
@[simp] theorem State.goFatal_kv (c : FatalInfo) : (s.goFatal c).kv = s.kv := rfl
@[simp] theorem State.goFatal_uds (c : FatalInfo) : (s.goFatal c).uds = s.uds := rfl
@[simp] theorem State.goFatal_fe (c : FatalInfo) : (s.goFatal c).fe = s.fe := rfl
@[simp] theorem State.goFatal_doekey (c : FatalInfo) : (s.goFatal c).doekey = s.doekey := rfl
@[simp] theorem State.goFatal_fatal (c : FatalInfo) : (s.goFatal c).fatal = some c := rfl
@[simp] theorem State.goFatal_further (c : FatalInfo) : (s.goFatal c).further = s.further := rfl
@[simp] theorem State.goFatal_cfg (c : FatalInfo) : (s.goFatal c).cfg = s.cfg := rfl
@[simp] theorem State.goFatal_peripherals (c : FatalInfo) : (s.goFatal c).peripherals = s.peripherals := rfl
@[simp] theorem State.goFatal_requests (c : FatalInfo) : (s.goFatal c).requests = s.requests := rfl
@[simp] theorem State.goFatal_response (c : FatalInfo) : (s.goFatal c).response = s.response := rfl

@[simp] theorem State.setSlot_now (i : Nat) (b : KeySlot) : (s.setSlot i b).now = s.now := rfl
@[simp] theorem State.setSlot_iv (i : Nat) (b : KeySlot) : (s.setSlot i b).iv = s.iv := rfl
@[simp] theorem State.setSlot_control (i : Nat) (b : KeySlot) : (s.setSlot i b).control = s.control := rfl
@[simp] theorem State.setSlot_pending (i : Nat) (b : KeySlot) : (s.setSlot i b).pending = s.pending := rfl
@[simp] theorem State.setSlot_kv (i : Nat) (b : KeySlot) : (s.setSlot i b).kv = s.kv.set i b := rfl
@[simp] theorem State.setSlot_uds (i : Nat) (b : KeySlot) : (s.setSlot i b).uds = s.uds := rfl
@[simp] theorem State.setSlot_fe (i : Nat) (b : KeySlot) : (s.setSlot i b).fe = s.fe := rfl
@[simp] theorem State.setSlot_doekey (i : Nat) (b : KeySlot) : (s.setSlot i b).doekey = s.doekey := rfl
@[simp] theorem State.setSlot_fatal (i : Nat) (b : KeySlot) : (s.setSlot i b).fatal = s.fatal := rfl
@[simp] theorem State.setSlot_further (i : Nat) (b : KeySlot) : (s.setSlot i b).further = s.further := rfl
@[simp] theorem State.setSlot_cfg (i : Nat) (b : KeySlot) : (s.setSlot i b).cfg = s.cfg := rfl
@[simp] theorem State.setSlot_peripherals (i : Nat) (b : KeySlot) : (s.setSlot i b).peripherals = s.peripherals := rfl
@[simp] theorem State.setSlot_requests (i : Nat) (b : KeySlot) : (s.setSlot i b).requests = s.requests := rfl
@[simp] theorem State.setSlot_response (i : Nat) (b : KeySlot) : (s.setSlot i b).response = s.response := rfl

@[simp] theorem State.clearSecretStore_now : (s.clearSecretStore).now = s.now := rfl
@[simp] theorem State.clearSecretStore_iv : (s.clearSecretStore).iv = s.iv := rfl
@[simp] theorem State.clearSecretStore_control : (s.clearSecretStore).control = s.control := rfl
@[simp] theorem State.clearSecretStore_pending : (s.clearSecretStore).pending = s.pending := rfl
@[simp] theorem State.clearSecretStore_kv : (s.clearSecretStore).kv = s.kv := rfl
@[simp] theorem State.clearSecretStore_uds : (s.clearSecretStore).uds = zeros 48 := rfl
@[simp] theorem State.clearSecretStore_fe : (s.clearSecretStore).fe = zeros 64 := rfl
@[simp] theorem State.clearSecretStore_doekey : (s.clearSecretStore).doekey = zeros 32 := rfl
@[simp] theorem State.clearSecretStore_fatal : (s.clearSecretStore).fatal = s.fatal := rfl
@[simp] theorem State.clearSecretStore_further : (s.clearSecretStore).further = s.further := rfl
@[simp] theorem State.clearSecretStore_cfg : (s.clearSecretStore).cfg = s.cfg := rfl
@[simp] theorem State.clearSecretStore_peripherals : (s.clearSecretStore).peripherals = s.peripherals := rfl
@[simp] theorem State.clearSecretStore_requests : (s.clearSecretStore).requests = s.requests := rfl
@[simp] theorem State.clearSecretStore_response : (s.clearSecretStore).response = s.response := rfl

@[simp] theorem State.setPeripheral_now (p v : Nat) : (s.setPeripheral p v).now = s.now := rfl
@[simp] theorem State.setPeripheral_iv (p v : Nat) : (s.setPeripheral p v).iv = s.iv := rfl
@[simp] theorem State.setPeripheral_control (p v : Nat) : (s.setPeripheral p v).control = s.control := rfl
@[simp] theorem State.setPeripheral_pending (p v : Nat) : (s.setPeripheral p v).pending = s.pending := rfl
@[simp] theorem State.setPeripheral_kv (p v : Nat) : (s.setPeripheral p v).kv = s.kv := rfl
@[simp] theorem State.setPeripheral_uds (p v : Nat) : (s.setPeripheral p v).uds = s.uds := rfl
@[simp] theorem State.setPeripheral_fe (p v : Nat) : (s.setPeripheral p v).fe = s.fe := rfl
@[simp] theorem State.setPeripheral_doekey (p v : Nat) : (s.setPeripheral p v).doekey = s.doekey := rfl
@[simp] theorem State.setPeripheral_fatal (p v : Nat) : (s.setPeripheral p v).fatal = s.fatal := rfl
@[simp] theorem State.setPeripheral_further (p v : Nat) : (s.setPeripheral p v).further = s.further := rfl
@[simp] theorem State.setPeripheral_cfg (p v : Nat) : (s.setPeripheral p v).cfg = s.cfg := rfl
@[simp] theorem State.setPeripheral_peripherals (p v : Nat) : (s.setPeripheral p v).peripherals = s.peripherals.set p v := rfl
@[simp] theorem State.setPeripheral_requests (p v : Nat) : (s.setPeripheral p v).requests = s.requests := rfl
@[simp] theorem State.setPeripheral_response (p v : Nat) : (s.setPeripheral p v).response = s.response := rfl

@[simp] theorem State.withDoe_now (d : DoeUnit) : (s.withDoe d).now = s.now := rfl
@[simp] theorem State.withDoe_iv (d : DoeUnit) : (s.withDoe d).iv = d.iv := rfl
@[simp] theorem State.withDoe_control (d : DoeUnit) : (s.withDoe d).control = d.control := rfl
@[simp] theorem State.withDoe_pending (d : DoeUnit) : (s.withDoe d).pending = d.pending := rfl
@[simp] theorem State.withDoe_kv (d : DoeUnit) : (s.withDoe d).kv = s.kv := rfl
@[simp] theorem State.withDoe_uds (d : DoeUnit) : (s.withDoe d).uds = s.uds := rfl
@[simp] theorem State.withDoe_fe (d : DoeUnit) : (s.withDoe d).fe = s.fe := rfl
@[simp] theorem State.withDoe_doekey (d : DoeUnit) : (s.withDoe d).doekey = s.doekey := rfl
@[simp] theorem State.withDoe_fatal (d : DoeUnit) : (s.withDoe d).fatal = s.fatal := rfl
@[simp] theorem State.withDoe_further (d : DoeUnit) : (s.withDoe d).further = s.further := rfl
@[simp] theorem State.withDoe_cfg (d : DoeUnit) : (s.withDoe d).cfg = s.cfg := rfl
@[simp] theorem State.withDoe_peripherals (d : DoeUnit) : (s.withDoe d).peripherals = s.peripherals := rfl
@[simp] theorem State.withDoe_requests (d : DoeUnit) : (s.withDoe d).requests = s.requests := rfl
@[simp] theorem State.withDoe_response (d : DoeUnit) : (s.withDoe d).response = s.response := rfl

/-- The registers a further DOE works on (R224). -/
theorem State.focus_eq {s : State} {j : Nat} {d : DoeUnit} (h : s.further[j]? = some d) : s.focus j = s.withDoe d := by
  simp [State.focus, h]

/-- An operation of a further DOE, from what the operation leaves on that DOE's registers (R224). -/
theorem atFurther_some {s t : State} {j : Nat} {d : DoeUnit} {f : State → State} (h : s.further[j]? = some d)
    (ht : f (s.withDoe d) = t) : atFurther j f s = { t with
      iv := s.iv
      control := s.control
      pending := s.pending
      further := s.further.set j { iv := t.iv, control := t.control, pending := t.pending } } := by
  subst ht
  simp [atFurther, h]

/-- A number that names no DOE changes nothing. -/
theorem atFurther_none {s : State} {j : Nat} {f : State → State} (h : s.further[j]? = none) : atFurther j f s = s := by
  simp [atFurther, h]

@[simp] theorem State.kvSlots_eq : s.kvSlots = s.kv.length := rfl
@[simp] theorem State.udsOf_eq : s.udsOf = s.uds := rfl
@[simp] theorem State.fieldEntropy_eq : s.fieldEntropy = s.fe := rfl
@[simp] theorem State.doeKey_eq : s.doeKey = s.doekey := rfl
@[simp] theorem State.readKey_eq (i : Nat) : s.readKey i = s.kv[i]? := rfl

/-- A live machine runs the operation. -/
@[simp] theorem ifLive_live {s : State} (h : s.fatal = none) (r : Result) : ifLive s r = r := by
  simp [ifLive, h]

/-- A stuck machine has no step (R214). -/
@[simp] theorem ifLive_stuck {s : State} {c : FatalInfo} (h : s.fatal = some c) (r : Result) :
    ifLive s r = .fault (.stuckFatal c) := by
  simp [ifLive, h]

/-- What an operation that answered a next state was given: a live machine, and that answer. -/
theorem ifLive_next {s t : State} {r : Result} (h : ifLive s r = .next t) : s.fatal = none ∧ r = .next t := by
  unfold ifLive at h
  split at h
  · cases h
  · exact ⟨‹_›, h⟩

/-- `write_key` succeeds exactly below KV_SLOTS (R192). -/
theorem State.writeKey_eq (i : Nat) (b : KeySlot) :
    s.writeKey i b = if i < s.kv.length then some (s.setSlot i b) else none := rfl

end Sys2Proof.Machine
end

