-- ==== Sys2Proof/Laws/Bus.lean ====
section
/-! SUPPORT. The IV buffer's words, the owner of an address, and what READ and WRITE can do. -/

namespace Sys2Proof.Machine

/-! ## IV words -/

/-- The byte a word write puts at index i, or the byte that was there (R56). -/
theorem setIvWord_getElem (o : ByteOrder) (iv : Bytes 16) (k : BitVec 2) (w : Word) (i : Nat) (h : i < 16) :
    (setIvWord o iv k w)[i] = if i / 4 = k.toNat then wordByte o w ⟨i % 4, by omega⟩ else iv[i] := by
  have hk := k.isLt
  simp only [setIvWord, Vector.getElem_setIfInBounds]
  by_cases h4 : i / 4 = k.toNat
  · rw [if_pos h4]
    have hj : i = 4 * k.toNat + i % 4 := by omega
    have : i % 4 = 0 ∨ i % 4 = 1 ∨ i % 4 = 2 ∨ i % 4 = 3 := by omega
    rcases this with hm | hm | hm | hm <;> rw [hm] at hj
    · rw [if_neg (by omega), if_neg (by omega), if_neg (by omega), if_pos (by omega)]
      exact congrArg (wordByte o w) (Fin.ext hm.symm)
    · rw [if_neg (by omega), if_neg (by omega), if_pos (by omega)]
      exact congrArg (wordByte o w) (Fin.ext hm.symm)
    · rw [if_neg (by omega), if_pos (by omega)]
      exact congrArg (wordByte o w) (Fin.ext hm.symm)
    · rw [if_pos (by omega)]
      exact congrArg (wordByte o w) (Fin.ext hm.symm)
  · rw [if_neg h4, if_neg (by omega), if_neg (by omega), if_neg (by omega), if_neg (by omega)]

/-- The bytes of the written word. -/
theorem ivByte_setIvWord_same (o : ByteOrder) (iv : Bytes 16) (k : BitVec 2) (w : Word) (j : Fin 4) :
    ivByte (setIvWord o iv k w) k j = wordByte o w j := by
  have hk := k.isLt
  simp only [ivByte, setIvWord_getElem]
  rw [if_pos (by omega)]
  congr 1
  ext
  simp only
  omega

/-- The bytes of another word. -/
theorem ivByte_setIvWord_other (o : ByteOrder) (iv : Bytes 16) {k l : BitVec 2} (h : k ≠ l) (w : Word) (j : Fin 4) :
    ivByte (setIvWord o iv k w) l j = ivByte iv l j := by
  have hl := l.isLt
  have hne : l.toNat ≠ k.toNat := fun e => h (BitVec.eq_of_toNat_eq e.symm)
  simp only [ivByte, setIvWord_getElem]
  rw [if_neg (by omega)]

/-- Unpacking then packing a word gives the word (R10). -/
theorem packWord_wordByte (o : ByteOrder) (w : Word) :
    packWord o (wordByte o w 0) (wordByte o w 1) (wordByte o w 2) (wordByte o w 3) = w := by
  cases o <;>
  · apply BitVec.eq_of_getLsbD_eq
    intro i hi
    simp only [packWord, wordByte, BitVec.getLsbD_append, BitVec.getLsbD_extractLsb']
    by_cases h1 : i < 8
    · simp [h1]
    · by_cases h2 : i < 16
      · simp [h1, show i - 8 < 8 by omega]
        congr 1; omega
      · by_cases h3 : i < 24
        · simp [h1, show ¬ i - 8 < 8 by omega, show i - 8 - 8 < 8 by omega]
          congr 1; omega
        · simp [h1, show ¬ i - 8 < 8 by omega, show ¬ i - 8 - 8 < 8 by omega, show i - 8 - 8 - 8 < 8 by omega]
          congr 1; omega

/-- A word just written reads back (R171). -/
theorem ivWord_setIvWord_same (o : ByteOrder) (iv : Bytes 16) (k : BitVec 2) (w : Word) :
    ivWord o (setIvWord o iv k w) k = w := by
  simp [ivWord, ivByte_setIvWord_same, packWord_wordByte]

/-- Another word is unchanged by a write (R172). -/
theorem ivWord_setIvWord_other (o : ByteOrder) (iv : Bytes 16) {k l : BitVec 2} (h : k ≠ l) (w : Word) :
    ivWord o (setIvWord o iv k w) l = ivWord o iv l := by
  simp [ivWord, ivByte_setIvWord_other o iv h]

/-! ## Addresses and owners -/

/-- The offset of IV word k is 4k. -/
theorem ivOffset_toNat (k : BitVec 2) : (ivOffset k).toNat = 4 * k.toNat := by
  revert k; decide

/-- What a well-formed configuration says of DOE_BASE (R8, R66). -/
theorem wf_doeBase {n : Nat} {cfg : Config} (h : cfg.wf n = true) :
    cfg.doeBase.toNat % 4 = 0 ∧ cfg.doeBase.toNat + 0x14 ≤ 2 ^ 32 := by
  simp only [Config.wf, doeBaseOk, Bool.and_eq_true, beq_iff_eq, decide_eq_true_eq] at h
  omega

/-- The absolute address of an offset inside the DOE's map does not wrap. -/
theorem addrOf_toNat {n : Nat} {cfg : Config} (h : cfg.wf n = true) {off : Word} (ho : off.toNat < 0x14) :
    (addrOf cfg off).toNat = cfg.doeBase.toNat + off.toNat := by
  have hb := (wf_doeBase h).2
  simp only [addrOf, BitVec.toNat_add]
  omega

/-- The owner of an address in the IV region. -/
theorem owner_iv {cfg : Config} {addr : Word} (h1 : cfg.doeBase.toNat ≤ addr.toNat)
    (h2 : addr.toNat < cfg.doeBase.toNat + 0x10) :
    owner cfg addr = some { base := cfg.doeBase.toNat, len := 0x10, gran := 4, handler := .doeIv } := by
  simp [owner, regionTable, doeRegions, doeRegionsAt, owns, h1, h2]

/-- The owner of an address in the CONTROL region. -/
theorem owner_control {cfg : Config} {addr : Word} (h1 : cfg.doeBase.toNat + 0x10 ≤ addr.toNat)
    (h2 : addr.toNat < cfg.doeBase.toNat + 0x14) :
    owner cfg addr = some { base := cfg.doeBase.toNat + 0x10, len := 4, gran := 4, handler := .doeControl } := by
  have : ¬ addr.toNat < cfg.doeBase.toNat + 0x10 := by omega
  simp [owner, regionTable, doeRegions, doeRegionsAt, owns, h1, this]
  omega

/-- An owner is a region of the table that owns the address. -/
theorem owner_some {cfg : Config} {addr : Word} {r : Region} (h : owner cfg addr = some r) :
    r ∈ regionTable cfg ∧ owns r addr.toNat = true :=
  ⟨List.mem_of_find?_eq_some h, by simpa using List.find?_some h⟩

/-- The regions of the further DOEs: two of each, at its base (R53, R224). -/
theorem mem_furtherRegions {r : Region} : ∀ {j : Nat} {bases : List Word}, r ∈ furtherRegions j bases ↔
    ∃ (i : Nat) (b : Word), bases[i]? = some b ∧ r ∈ doeRegionsAt b (.furtherIv (j + i)) (.furtherControl (j + i))
  | j, [] => by simp [furtherRegions]
  | j, base :: bases => by
    rw [furtherRegions, List.mem_append, mem_furtherRegions]
    constructor
    · rintro (h | ⟨i, b, hb, h⟩)
      · exact ⟨0, base, rfl, h⟩
      · exact ⟨i + 1, b, hb, by rwa [show j + (i + 1) = j + 1 + i by omega]⟩
    · rintro ⟨i, b, hb, h⟩
      cases i with
      | zero => cases hb; exact .inl h
      | succ i => exact .inr ⟨i, b, hb, by rwa [show j + 1 + i = j + (i + 1) by omega]⟩

/-- What a well-formed configuration says of a further DOE's base (R8, R66). -/
theorem wf_furtherBase {n : Nat} {cfg : Config} (h : cfg.wf n = true) {j : Nat} {b : Word}
    (hb : cfg.furtherBases[j]? = some b) : b.toNat % 4 = 0 ∧ b.toNat + 0x14 ≤ 2 ^ 32 := by
  simp only [Config.wf, Bool.and_eq_true, List.all_eq_true] at h
  have := h.1.1.1.1.2 b (List.mem_of_getElem? hb)
  simpa [doeBaseOk] using this

/-- The regions of the table: the DOE's two, a further DOE's two, or one of another peripheral. -/
theorem mem_regionTable {n : Nat} {cfg : Config} (hw : cfg.wf n = true) {r : Region} (h : r ∈ regionTable cfg) :
    r = { base := cfg.doeBase.toNat, len := 0x10, gran := 4, handler := .doeIv } ∨
    r = { base := cfg.doeBase.toNat + 0x10, len := 4, gran := 4, handler := .doeControl } ∨
    (∃ (j : Nat) (b : Word), cfg.furtherBases[j]? = some b ∧
      (r = { base := b.toNat, len := 0x10, gran := 4, handler := .furtherIv j } ∨
       r = { base := b.toNat + 0x10, len := 4, gran := 4, handler := .furtherControl j })) ∨
    (r ∈ cfg.otherRegions ∧ r.wf = true ∧ ∃ p j, r.handler = .peripheral p j ∧ p < n) := by
  simp only [regionTable, doeRegions, doeRegionsAt, List.cons_append, List.nil_append, List.mem_cons,
    List.mem_append] at h
  rcases h with h | h | h | h
  · exact .inl h
  · exact .inr (.inl h)
  · obtain ⟨j, b, hb, h⟩ := mem_furtherRegions.mp h
    refine .inr (.inr (.inl ⟨j, b, hb, ?_⟩))
    simpa [doeRegionsAt] using h
  · refine .inr (.inr (.inr ⟨h, ?_⟩))
    have ho : cfg.otherRegions.all (fun r => r.wf && r.isOther n) = true := by
      simp only [Config.wf, Bool.and_eq_true] at hw
      exact hw.1.1.1.2
    have hr := List.all_eq_true.mp ho r h
    simp only [Bool.and_eq_true] at hr
    refine ⟨hr.1, ?_⟩
    have h2 := hr.2
    unfold Region.isOther at h2
    split at h2
    · exact ⟨_, _, ‹_›, by simpa using h2⟩
    · cases h2

/-- In a list of regions no two of which overlap, a region that owns an address is the first that does (R52). -/
theorem find_owner {addr : Nat} {r : Region} : ∀ {l : List Region}, Region.disjoint l = true → r ∈ l →
    owns r addr = true → l.find? (fun q => owns q addr) = some r
  | q :: l, hd, hm, ho => by
    simp only [Region.disjoint, Bool.and_eq_true, List.all_eq_true] at hd
    rcases List.mem_cons.mp hm with rfl | hm
    · simp [ho]
    · have hq : owns q addr = false := by
        have h := hd.1 r hm
        simp only [overlap, owns, Bool.not_eq_true', Bool.and_eq_false_iff, decide_eq_false_iff_not, Bool.and_eq_true,
          decide_eq_true_eq] at h ho ⊢
        omega
      simp only [List.find?, hq]
      exact find_owner hd.2 hm ho

/-- In a well-formed configuration, the region that owns an address is its owner (R52). -/
theorem owner_of_owns {n : Nat} {cfg : Config} (hw : cfg.wf n = true) {addr : Word} {r : Region} (hm : r ∈ regionTable cfg)
    (ho : owns r addr.toNat = true) : owner cfg addr = some r := by
  simp only [Config.wf, Bool.and_eq_true] at hw
  exact find_owner hw.1.1.2 hm ho

/-- The regions of further DOE `j` are in the table (R53, R224). -/
theorem further_mem_regionTable {cfg : Config} {j : Nat} {b : Word} (hb : cfg.furtherBases[j]? = some b) {r : Region}
    (hr : r ∈ doeRegionsAt b (.furtherIv j) (.furtherControl j)) : r ∈ regionTable cfg := by
  refine List.mem_append_right _ (List.mem_append_left _ (mem_furtherRegions.mpr ⟨j, b, hb, ?_⟩))
  rwa [Nat.zero_add]

/-! ## The check pipeline -/

/-- What a check that passed says (R121). -/
theorem check_ok {cfg : Config} {op : AccessKind} {size : AccessSize} {addr : Word} {r : Region}
    (h : check cfg op size addr = .ok r) :
    owner cfg addr = some r ∧ sizeBytes size = some r.gran ∧ addr.toNat % r.gran = 0 ∧
      addr.toNat + r.gran ≤ r.base + r.len := by
  unfold check at h
  split at h
  · cases h
  · rename_i q hq
    split at h
    · cases h
    · rename_i n hn
      split at h
      · cases h
      · split at h
        · cases h
        · split at h
          · cases h
          · cases h
            have : n = r.gran := by omega
            subst this
            exact ⟨hq, hn, by omega, by omega⟩

/-- What a failed check says: the fault names the access (R210 to R212). -/
theorem check_error {cfg : Config} {op : AccessKind} {size : AccessSize} {addr : Word} {f : BusFault}
    (h : check cfg op size addr = .error f) : f.op = op ∧ f.size = size ∧ f.addr = addr := by
  unfold check at h
  split at h
  · cases h; exact ⟨rfl, rfl, rfl⟩
  · split at h
    · cases h; exact ⟨rfl, rfl, rfl⟩
    · split at h
      · cases h; exact ⟨rfl, rfl, rfl⟩
      · split at h
        · cases h; exact ⟨rfl, rfl, rfl⟩
        · split at h
          · cases h; exact ⟨rfl, rfl, rfl⟩
          · cases h

/-- The word access at IV word k passes (R91). -/
theorem check_iv {n : Nat} {cfg : Config} (h : cfg.wf n = true) (op : AccessKind) (k : BitVec 2) :
    check cfg op .word (addrOf cfg (ivOffset k)) =
      .ok { base := cfg.doeBase.toNat, len := 0x10, gran := 4, handler := .doeIv } := by
  have hk := k.isLt
  have ho := ivOffset_toNat k
  have ha := addrOf_toNat h (off := ivOffset k) (by omega)
  have hb := wf_doeBase h
  have how := owner_iv (cfg := cfg) (addr := addrOf cfg (ivOffset k)) (by omega) (by omega)
  simp only [check, how, sizeBytes]
  rw [if_neg (by omega), if_neg (by decide), if_neg (by omega)]

/-- The word access at CONTROL passes (R91). -/
theorem check_control {n : Nat} {cfg : Config} (h : cfg.wf n = true) (op : AccessKind) :
    check cfg op .word (addrOf cfg controlOffset) =
      .ok { base := cfg.doeBase.toNat + 0x10, len := 4, gran := 4, handler := .doeControl } := by
  have ho : controlOffset.toNat = 0x10 := rfl
  have ha := addrOf_toNat h (off := controlOffset) (by omega)
  have hb := wf_doeBase h
  have how := owner_control (cfg := cfg) (addr := addrOf cfg controlOffset) (by omega) (by omega)
  simp only [check, how, sizeBytes]
  rw [if_neg (by omega), if_neg (by decide), if_neg (by omega)]

/-- The offset of IV word k inside its region names word k again. -/
theorem ivIndex_addr {n : Nat} {cfg : Config} (h : cfg.wf n = true) (k : BitVec 2) :
    ivIndex ((addrOf cfg (ivOffset k)).toNat - cfg.doeBase.toNat) = k := by
  have hk := k.isLt
  have ho := ivOffset_toNat k
  have ha := addrOf_toNat h (off := ivOffset k) (by omega)
  rw [ha, ho]
  apply BitVec.eq_of_toNat_eq
  simp only [ivIndex, BitVec.toNat_ofNat]
  omega

/-! ## READ and WRITE -/

/-- Everything READ can do when it answers a next state (R129): only the response changes. -/
theorem busRead_next {size : AccessSize} {addr : Word} {s t : State} (h : busRead size addr s = .next t) :
    s.fatal = none ∧
      ((∃ f, check s.cfg .read size addr = .error f ∧ t = s.respond (.fault f)) ∨
       (∃ r, check s.cfg .read size addr = .ok r ∧
          t = s.respond (.value (readHandler s r (addr.toNat - r.base))))) := by
  obtain ⟨hl, h⟩ := ifLive_next h
  refine ⟨hl, ?_⟩
  split at h
  · cases h; exact .inl ⟨_, ‹_›, rfl⟩
  · cases h; exact .inr ⟨_, ‹_›, rfl⟩

/-- Everything WRITE can do when it answers a next state (R130). -/
theorem busWrite_next {size : AccessSize} {addr v : Word} {s t : State} (h : busWrite size addr v s = .next t) :
    s.fatal = none ∧
      ((∃ f, check s.cfg .write size addr = .error f ∧ t = s.respond (.fault f)) ∨
       (∃ r, check s.cfg .write size addr = .ok r ∧
          t = (writeHandler s r (addr.toNat - r.base) v).respond .done)) := by
  obtain ⟨hl, h⟩ := ifLive_next h
  refine ⟨hl, ?_⟩
  split at h
  · cases h; exact .inl ⟨_, ‹_›, rfl⟩
  · cases h; exact .inr ⟨_, ‹_›, rfl⟩

/-- Everything WRITE.CONTROL's handler can do (R174). -/
theorem doeWriteControl_eq (s : State) (v : Word) : doeWriteControl s v =
    if v.extractLsb' 0 2 = 0 then { s with control := v }
    else { s with control := v &&& 0xFFFFFFDF, pending := some (s.now + 1000) } := by
  by_cases hc : v.extractLsb' 0 2 = 0
  · rw [doeWriteControl, if_pos ((controlCmd_idle_iff v).mpr hc), if_pos hc]
  · rw [doeWriteControl, if_neg (fun e => hc ((controlCmd_idle_iff v).mp e)), if_neg hc, clearFlowDone_eq]
    rfl

/-- Everything a write of a further DOE can do: to its own registers, nothing else (R172, R174, R224). -/
theorem furtherWrite_cases (s : State) (j : Nat) (f : State → State) (v : Word)
    (hf : (∃ k, f = fun t => doeWriteIv t k v) ∨ f = fun t => doeWriteControl t v) :
    atFurther j f s = s ∨ ∃ d e : DoeUnit, s.further[j]? = some d ∧
      (e.pending = d.pending ∨ e.pending = some (s.now + 1000)) ∧
      atFurther j f s = { s with further := s.further.set j e } := by
  cases hd : s.further[j]? with
  | none => exact .inl (atFurther_none hd)
  | some d =>
    refine .inr ⟨d, ?_⟩
    rcases hf with ⟨k, rfl⟩ | rfl
    · refine ⟨⟨setIvWord s.cfg.ivByteOrder d.iv k v, d.control, d.pending⟩, rfl, .inl rfl, ?_⟩
      rw [atFurther_some hd (t := doeWriteIv (s.withDoe d) k v) rfl]
      simp [doeWriteIv]
    · by_cases hc : v.extractLsb' 0 2 = 0
      · refine ⟨⟨d.iv, v, d.pending⟩, rfl, .inl rfl, ?_⟩
        rw [atFurther_some hd (doeWriteControl_eq _ _), if_pos hc]
        rfl
      · refine ⟨⟨d.iv, v &&& 0xFFFFFFDF, some (s.now + 1000)⟩, rfl, .inr rfl, ?_⟩
        rw [atFurther_some hd (doeWriteControl_eq _ _), if_neg hc]
        rfl

/-- Everything a write handler can do (R127, R131, R224). -/
theorem writeHandler_cases (s : State) (r : Region) (off : Nat) (v : Word) :
    (∃ k, writeHandler s r off v = { s with iv := setIvWord s.cfg.ivByteOrder s.iv k v }) ∨
    (v.extractLsb' 0 2 = 0 ∧ writeHandler s r off v = { s with control := v }) ∨
    (v.extractLsb' 0 2 ≠ 0 ∧
      writeHandler s r off v = { s with control := v &&& 0xFFFFFFDF, pending := some (s.now + 1000) }) ∨
    (writeHandler s r off v = s ∨ ∃ (j : Nat) (d e : DoeUnit), s.further[j]? = some d ∧
      (e.pending = d.pending ∨ e.pending = some (s.now + 1000)) ∧
      writeHandler s r off v = { s with further := s.further.set j e }) ∨
    (∃ p x, writeHandler s r off v = { s with peripherals := s.peripherals.set p x }) := by
  unfold writeHandler
  split
  · exact .inl ⟨_, rfl⟩
  · by_cases hc : v.extractLsb' 0 2 = 0
    · exact .inr (.inl ⟨hc, by rw [doeWriteControl_eq, if_pos hc]⟩)
    · exact .inr (.inr (.inl ⟨hc, by rw [doeWriteControl_eq, if_neg hc]⟩))
  · rename_i j _
    rcases furtherWrite_cases s j _ v (.inl ⟨ivIndex off, rfl⟩) with h | ⟨d, e, h⟩
    · exact .inr (.inr (.inr (.inl (.inl h))))
    · exact .inr (.inr (.inr (.inl (.inr ⟨j, d, e, h⟩))))
  · rename_i j _
    rcases furtherWrite_cases s j _ v (.inr rfl) with h | ⟨d, e, h⟩
    · exact .inr (.inr (.inr (.inl (.inl h))))
    · exact .inr (.inr (.inr (.inl (.inr ⟨j, d, e, h⟩))))
  · exact .inr (.inr (.inr (.inr ⟨_, _, rfl⟩)))

end Sys2Proof.Machine
end

