-- ==== Sys2Proof/Laws/Doe.lean ====
section
/-! SUPPORT. The timer, the four commands, the fire and the DOE's poll: everything each of them can do. -/

namespace Sys2Proof.Machine

/-- The cipher does not fail on a call the configuration does not list (R194). -/
theorem decrypt_some {cfg : Config} {m : Nat} {key : Bytes 32} {iv : Bytes 16} {ct : Bytes (16 * m)}
    (h : (⟨key, iv, ct.toList⟩ : CipherCall) ∉ cfg.cipherFailures) :
    decrypt cfg m key iv ct = some (Config.aes256CbcPlaintext m key iv ct) := by
  simp [decrypt, h]

/-- The cipher fails exactly on the calls the configuration lists (R186). -/
theorem decrypt_none {cfg : Config} {m : Nat} {key : Bytes 32} {iv : Bytes 16} {ct : Bytes (16 * m)}
    (h : (⟨key, iv, ct.toList⟩ : CipherCall) ∈ cfg.cipherFailures) : decrypt cfg m key iv ct = none := by
  simp [decrypt, h]

/-- A failing cipher means the configuration lists a failing call. -/
theorem decrypt_none_ne_nil {cfg : Config} {m : Nat} {key : Bytes 32} {iv : Bytes 16} {ct : Bytes (16 * m)}
    (h : decrypt cfg m key iv ct = none) : cfg.cipherFailures ≠ [] := by
  intro e
  simp [decrypt, e] at h

/-- Delivering a plaintext is the vault's `write_key`, and a write the vault refuses is fatal (R186, R192). -/
theorem deliver_eq_writeKey (s : State) (dest : Nat) (b : KeySlot) :
    deliver s dest (some b) = (s.writeKey dest b).getD (s.goFatal (.vaultWrite dest)) := by
  unfold deliver State.writeKey
  split <;> rfl

/-- What `deliver` can do: one slot, or a fatal mark (R179, R180, R186). -/
theorem deliver_cases (s : State) (dest : Nat) (slot : Option KeySlot) :
    (∃ b, dest < s.kv.length ∧ slot = some b ∧ deliver s dest slot = { s with kv := s.kv.set dest b }) ∨
    (dest < s.kv.length ∧ slot = none ∧ deliver s dest slot = { s with fatal := some .cipherFail }) ∨
    (s.kv.length ≤ dest ∧ deliver s dest slot = { s with fatal := some (.vaultWrite dest) }) := by
  by_cases h : dest < s.kv.length
  · cases slot with
    | none => exact .inr (.inl ⟨h, rfl, by simp [deliver, h, State.goFatal]⟩)
    | some b => exact .inl ⟨b, h, rfl, by simp [deliver, h, State.setSlot]⟩
  · exact .inr (.inr ⟨by omega, by simp [deliver, h, State.goFatal]⟩)

/-- Everything a fire can do from a live state (R177 to R186). -/
theorem fire_cases {s : State} (hl : s.fatal = none) :
    (∃ d b, d < 8 ∧ d < s.kv.length ∧
      fire s = { s with kv := s.kv.set d b, control := s.control ||| 0x20 }) ∨
    (∃ d, d < 8 ∧ s.kv.length ≤ d ∧ fire s = { s with fatal := some (.vaultWrite d) }) ∨
    (s.cfg.cipherFailures ≠ [] ∧ fire s = { s with fatal := some .cipherFail }) ∨
    (fire s = { s with uds := zeros 48, doekey := zeros 32, fe := zeros 64, control := s.control ||| 0x20 }) ∨
    (fire s = { s with control := s.control ||| 0x20 }) := by
  have hd := controlDest_lt s.control
  have dec : ∀ slot : Option KeySlot, (slot = none → s.cfg.cipherFailures ≠ []) →
      (∃ d b, d < 8 ∧ d < s.kv.length ∧
        completeFire (deliver s (controlDest s.control) slot) =
          { s with kv := s.kv.set d b, control := s.control ||| 0x20 }) ∨
      (∃ d, d < 8 ∧ s.kv.length ≤ d ∧
        completeFire (deliver s (controlDest s.control) slot) = { s with fatal := some (.vaultWrite d) }) ∨
      (s.cfg.cipherFailures ≠ [] ∧
        completeFire (deliver s (controlDest s.control) slot) = { s with fatal := some .cipherFail }) := by
    intro slot hs
    rcases deliver_cases s (controlDest s.control) slot with ⟨b, h, -, e⟩ | ⟨-, h, e⟩ | ⟨h, e⟩
    · exact .inl ⟨_, b, hd, h, by rw [e]; simp [completeFire, hl, setFlowDone_eq]⟩
    · exact .inr (.inr ⟨hs h, by rw [e]; simp [completeFire]⟩)
    · exact .inr (.inl ⟨_, hd, h, by rw [e]; simp [completeFire]⟩)
  unfold fire
  split
  · rcases dec (udsSlot s) (fun h => decrypt_none_ne_nil (by simpa [udsSlot] using h)) with h | h | h
    · exact .inl h
    · exact .inr (.inl h)
    · exact .inr (.inr (.inl h))
  · rcases dec (feSlot s) (fun h => decrypt_none_ne_nil (by simpa [feSlot] using h)) with h | h | h
    · exact .inl h
    · exact .inr (.inl h)
    · exact .inr (.inr (.inl h))
  · refine .inr (.inr (.inr (.inl ?_)))
    simp [doClear, completeFire, hl, setFlowDone_eq, State.clearSecretStore]
  · refine .inr (.inr (.inr (.inr ?_)))
    simp [doIdle, completeFire, hl, setFlowDone_eq]
  · refine .inr (.inr (.inr (.inr ?_)))
    simp [doIdle, completeFire, hl, setFlowDone_eq]

/-- A poll before the fire time, or with no action, changes nothing (R107). -/
theorem doePoll_quiet {s : State} (h : ∀ t, s.pending = some t → s.now < t) : doePoll s = s := by
  unfold doePoll fired
  cases hp : s.pending with
  | none => rfl
  | some t => simp [show ¬ t ≤ s.now by have := h t hp; omega]

/-- A poll that finds the action due empties the slot and fires (R177). -/
theorem doePoll_due {s : State} {t : Nat} (hp : s.pending = some t) (h : t ≤ s.now) :
    doePoll s = fire { s with pending := none } := by
  simp [doePoll, fired, hp, h]

/-- The two cases of a poll. -/
theorem doePoll_cases (s : State) :
    doePoll s = s ∧ (∀ t, s.pending = some t → s.now < t) ∨
    (∃ t, s.pending = some t ∧ t ≤ s.now ∧ doePoll s = fire { s with pending := none }) := by
  cases hp : s.pending with
  | none => exact .inl ⟨doePoll_quiet (by simp [hp]), by simp⟩
  | some t =>
    by_cases h : t ≤ s.now
    · exact .inr ⟨t, rfl, h, doePoll_due hp h⟩
    · have hq : ∀ u, some t = some u → s.now < u := by
        intro u e
        cases e
        omega
      exact .inl ⟨doePoll_quiet (by rw [hp]; exact hq), hq⟩

end Sys2Proof.Machine
end

