-- ==== Sys2Proof/Laws/Clock.lean ====
section
/-! SUPPORT. The poll fan-out, ADVANCE, and the step: everything each of them can do. -/

namespace Sys2Proof.Machine

/-- What every poll keeps, the fan-out keeps, from a live state on: each poll but the first runs on a live state (R101). -/
theorem pollAll_keeps {P : State → Prop}
    (hp : ∀ p s, s.fatal = none → P s → P (poll p s)) :
    ∀ (ps : List Poller) (s : State), s.fatal = none → P s → P (pollAll ps s)
  | [], _, _, h => h
  | p :: ps, s, hl, h => by
    unfold pollAll
    have h' := hp p s hl h
    split
    · exact h'
    · exact pollAll_keeps hp ps _ ‹_› h'

/-- With only the DOE in POLL_ORDER, the fan-out is its poll. -/
theorem pollAll_doe (s : State) : pollAll [.doe] s = doePoll s := by
  simp only [pollAll, poll]
  split <;> rfl

/-- Everything ADVANCE does when it answers a next state (R101). -/
theorem execAdvance_next {n : Nat} {s t : State} (h : execAdvance n s = .next t) :
    s.fatal = none ∧ t = (advanced n s).respond (advanceResponse (advanced n s)) := by
  obtain ⟨hl, h⟩ := ifLive_next h
  cases h
  exact ⟨hl, rfl⟩

/-- Everything a step can do when it answers a next state (R91, R226): nothing, with no request; or one READ, one WRITE, one
ADVANCE of the oldest request, which is taken from the list. The rows of the table are such operations. -/
theorem step_next {s t : State} (h : step s = .next t) :
    s.fatal = none ∧
      ((s.requests = [] ∧ t = s) ∨
       ∃ r rest, s.requests = r :: rest ∧
         ((∃ size addr, busRead size addr { s with requests := rest } = .next t) ∨
          (∃ size addr v, busWrite size addr v { s with requests := rest } = .next t) ∨
          (∃ n, execAdvance n { s with requests := rest } = .next t))) := by
  obtain ⟨hl, h⟩ := ifLive_next h
  refine ⟨hl, ?_⟩
  split at h
  · cases h; exact .inl ⟨‹_›, rfl⟩
  · rename_i r rest hr
    refine .inr ⟨r, rest, hr, ?_⟩
    unfold serve at h
    split at h
    · cases h
    · rename_i key payload
      split at h
      · rename_i i hi
        unfold decode at hi
        split at hi
        · cases hi
        · split at hi <;> cases hi
          · exact .inl ⟨_, _, h⟩
          · exact .inl ⟨_, _, h⟩
          · exact .inr (.inl ⟨_, _, _, h⟩)
          · exact .inr (.inl ⟨_, _, _, h⟩)
          · exact .inr (.inr ⟨_, h⟩)
      · rename_i op _
        cases op with
        | read size off => exact .inl ⟨_, _, h⟩
        | write size off v => exact .inr (.inl ⟨_, _, _, h⟩)
        | advance n => exact .inr (.inr ⟨_, h⟩)
      · cases h

end Sys2Proof.Machine
end

