-- ==== Sys2Proof/Laws/Encoding.lean ====
section
/-! SUPPORT. The fields of an encoded key and of an encoded CONTROL word, bit by bit. -/

namespace Sys2Proof

/-! ## Transaction keys -/

/-- Bit i of an encoded key (R81). -/
theorem encodeKey_getLsbD (op : BitVec 2) (size : BitVec 2) (off : Word) (i : Nat) :
    (encodeKey op size off).getLsbD i =
      if i < 32 then off.getLsbD i else if i < 34 then size.getLsbD (i - 32) else op.getLsbD (i - 34) := by
  rw [encodeKey, BitVec.getLsbD_append, BitVec.getLsbD_append]
  by_cases h : i < 32
  · simp [h]
  · by_cases h2 : i < 34
    · simp [h, h2, show i - 32 < 2 by omega]
    · simp [h, h2, show ¬ i - 32 < 2 by omega, show i - 32 - 2 = i - 34 by omega]

/-- OP reads back. -/
@[simp] theorem keyOp_encodeKey (op size : BitVec 2) (off : Word) : keyOp (encodeKey op size off) = op := by
  apply BitVec.eq_of_getLsbD_eq
  intro i hi
  rw [keyOp, BitVec.getLsbD_extractLsb', encodeKey_getLsbD, if_neg (by omega), if_neg (by omega),
    show 34 + i - 34 = i by omega]
  simp [hi]

/-- SZ reads back. -/
@[simp] theorem keySz_encodeKey (op size : BitVec 2) (off : Word) : keySz (encodeKey op size off) = size := by
  apply BitVec.eq_of_getLsbD_eq
  intro i hi
  rw [keySz, BitVec.getLsbD_extractLsb', encodeKey_getLsbD, if_neg (by omega), if_pos (by omega),
    show 32 + i - 32 = i by omega]
  simp [hi]

/-- OFF reads back. -/
@[simp] theorem keyOff_encodeKey (op size : BitVec 2) (off : Word) : keyOff (encodeKey op size off) = off := by
  apply BitVec.eq_of_getLsbD_eq
  intro i hi
  rw [keyOff, BitVec.getLsbD_extractLsb', encodeKey_getLsbD, if_pos (by omega)]
  simp [hi]

/-- A key is the encoding of its three fields. -/
theorem encodeKey_fields (key : Key) : encodeKey (keyOp key) (keySz key) (keyOff key) = key := by
  apply BitVec.eq_of_getLsbD_eq
  intro i hi
  rw [encodeKey_getLsbD]
  simp only [keyOp, keySz, keyOff, BitVec.getLsbD_extractLsb']
  split
  · simp [*]
  · split
    · rw [show 32 + (i - 32) = i by omega]; simp; omega
    · rw [show 34 + (i - 34) = i by omega]; simp; omega

/-! ## CONTROL words -/

/-- Bit i of an encoded CONTROL word (R86, R90). -/
theorem encodeControl_getLsbD (c : Cmd) (d : BitVec 3) (f : Bool) (r : BitVec 26) (i : Nat) :
    (encodeControl c d f r).getLsbD i =
      if i < 2 then (cmdBits c).getLsbD i else if i < 5 then d.getLsbD (i - 2) else if i < 6 then f
      else r.getLsbD (i - 6) := by
  simp only [encodeControl, BitVec.getLsbD_or, BitVec.getLsbD_shiftLeft, BitVec.getLsbD_setWidth, BitVec.getLsbD_ofBool]
  by_cases h32 : i < 32
  · by_cases h2 : i < 2
    · simp [h2, h32, show i < 6 by omega, show i < 5 by omega]
    · by_cases h5 : i < 5
      · simp [h2, h5, h32, show i < 6 by omega, show i - 2 < 32 by omega]
        exact fun h => absurd (BitVec.lt_of_getLsbD h) (by omega)
      · by_cases h6 : i < 6
        · have : i = 5 := by omega
          subst this
          simp
        · simp [h2, h5, h6, h32, show ¬ i - 5 = 0 by omega, show i - 6 < 32 by omega,
            BitVec.getLsbD_of_ge d (i - 2) (by omega), BitVec.getLsbD_of_ge (cmdBits c) i (by omega)]
  · simp [h32, show ¬ i < 2 by omega, show ¬ i < 5 by omega, show ¬ i < 6 by omega,
      BitVec.getLsbD_of_ge r (i - 6) (by omega)]

/-- CMD reads back (R87). -/
@[simp] theorem encodeControl_cmd (c : Cmd) (d : BitVec 3) (f : Bool) (r : BitVec 26) :
    (encodeControl c d f r).extractLsb' 0 2 = cmdBits c := by
  apply BitVec.eq_of_getLsbD_eq
  intro i hi
  rw [BitVec.getLsbD_extractLsb', encodeControl_getLsbD, if_pos (by omega)]
  simp [hi]

/-- DEST reads back (R88). -/
@[simp] theorem encodeControl_dest (c : Cmd) (d : BitVec 3) (f : Bool) (r : BitVec 26) :
    (encodeControl c d f r).extractLsb' 2 3 = d := by
  apply BitVec.eq_of_getLsbD_eq
  intro i hi
  rw [BitVec.getLsbD_extractLsb', encodeControl_getLsbD, if_neg (by omega), if_pos (by omega),
    show 2 + i - 2 = i by omega]
  simp [hi]

/-- FLOW_DONE reads back (R89). -/
@[simp] theorem encodeControl_flowDone (c : Cmd) (d : BitVec 3) (f : Bool) (r : BitVec 26) :
    (encodeControl c d f r).getLsbD 5 = f := by
  rw [encodeControl_getLsbD, if_neg (by omega), if_neg (by omega), if_pos (by omega)]

/-- The command codes and their decoding are inverse to each other (R87). -/
@[simp] theorem cmdOfBits_cmdBits (c : Cmd) : cmdOfBits (cmdBits c) = c := by cases c <;> decide

@[simp] theorem cmdBits_cmdOfBits : ∀ c : BitVec 2, cmdBits (cmdOfBits c) = c := by decide

end Sys2Proof
end

