-- ==== Sys2Proof/Laws/PerInstr.lean ====
section
/-! SUPPORT. The family EncodesItsRow: the encoding of every instruction, under its row's mask, is its row's match
(spec/opcode_table.json; R91). One lemma per constructor. -/

namespace Sys2Proof.Laws

/-- The match and mask of an instruction's row, as spec/opcode_table.json prints them. -/
def EncodesItsRow.rowBits : Instr → Nat × Nat
  | .readIv _ => (0x200000000, 0xFFFFFFFF3)
  | .readControl => (0x200000010, 0xFFFFFFFFF)
  | .writeIv _ _ => (0x600000000, 0xFFFFFFFF3)
  | .writeControl _ => (0x600000010, 0xFFFFFFFFF)
  | .advance _ => (0x800000000, 0xFFFFFFFFF)
  | .idle _ _ _ => (0x0, 0x3)
  | .deobfuscateUds _ _ _ => (0x1, 0x3)
  | .deobfuscateFe _ _ _ => (0x2, 0x3)
  | .clearSecrets _ _ _ => (0x3, 0x3)

/-- The bits of an encoding that the table numbers. -/
def EncodesItsRow.bits : Encoded → Nat
  | .transaction key _ => key.toNat
  | .control w => w.toNat

/-- The encoding of `i`, under its row's mask, is its row's match. -/
def EncodesItsRow.Statement (i : Instr) : Prop :=
  EncodesItsRow.bits (encode i) &&& (EncodesItsRow.rowBits i).2 = (EncodesItsRow.rowBits i).1

/-- The low two bits of an encoded CONTROL word are its command (R90). -/
theorem encodeControl_low (c : Cmd) (d : BitVec 3) (f : Bool) (r : BitVec 26) :
    (encodeControl c d f r).toNat &&& 3 = (cmdBits c).toNat := by
  have h : ((encodeControl c d f r) &&& 3#32) = (cmdBits c).setWidth 32 := by
    apply BitVec.eq_of_getLsbD_eq
    intro i hi
    have h3 : (3#32).getLsbD i = decide (i < 2) := by
      revert hi; revert i; decide
    simp only [encodeControl, BitVec.getLsbD_and, BitVec.getLsbD_or, BitVec.getLsbD_shiftLeft, BitVec.getLsbD_setWidth, h3]
    by_cases h2 : i < 2
    · simp [h2, hi, show i < 6 by omega, show i < 5 by omega]
    · simp [h2, BitVec.getLsbD_of_ge (cmdBits c) i (by omega)]
  have := congrArg BitVec.toNat h
  simpa [BitVec.toNat_and, Nat.mod_eq_of_lt (show (cmdBits c).toNat < 4294967296 by have := (cmdBits c).isLt; omega)] using this

namespace EncodesItsRow

theorem readIv (k : BitVec 2) : Statement (.readIv k) := by
  revert k; unfold Statement; decide

theorem readControl : Statement .readControl := by
  unfold Statement; decide

theorem writeIv (k : BitVec 2) (v : Word) : Statement (.writeIv k v) := by
  show (encodeKey 1 2 (ivOffset k)).toNat &&& 0xFFFFFFFF3 = 0x600000000
  revert k; decide

theorem writeControl (v : Word) : Statement (.writeControl v) := by
  show (encodeKey 1 2 controlOffset).toNat &&& 0xFFFFFFFFF = 0x600000010
  decide

theorem advance (n : Nat) : Statement (.advance n) := by
  show (encodeKey 2 0 0).toNat &&& 0xFFFFFFFFF = 0x800000000
  decide

theorem idle (d : BitVec 3) (f : Bool) (r : BitVec 26) : Statement (.idle d f r) := encodeControl_low .idle d f r

theorem deobfuscateUds (d : BitVec 3) (f : Bool) (r : BitVec 26) : Statement (.deobfuscateUds d f r) :=
  encodeControl_low .deobfuscateUds d f r

theorem deobfuscateFe (d : BitVec 3) (f : Bool) (r : BitVec 26) : Statement (.deobfuscateFe d f r) :=
  encodeControl_low .deobfuscateFe d f r

theorem clearSecrets (d : BitVec 3) (f : Bool) (r : BitVec 26) : Statement (.clearSecrets d f r) :=
  encodeControl_low .clearSecrets d f r

end EncodesItsRow

end Sys2Proof.Laws
end

