-- ==== Sys2Proof/Tests/Slice0.lean ====
section
/-! SUPPORT. The model's own tests. Expected values come from spec/95_test_vectors.md (its vector is named) or are worked out
by hand from the rule named. The last part shows, for each obligation with hypotheses, states and operands that meet
them. -/

namespace Sys2Proof.Tests
open Sys2Proof Sys2Proof.Machine

/-! ## Helpers -/

/-- The highest base the spec allows (R8). -/
def highBase : Config := { Config.default with doeBase := 0xFFFFFFEC }

/-- Peripheral 0 has a halfword region at 0x100 and is polled before the DOE. -/
def shared : Config :=
  { Config.default with
    otherRegions := [{ base := 0x100, len := 8, gran := 2, handler := .peripheral 0 5 }]
    pollOrder := [.peripheral 0, .doe] }

/-- A further DOE at 0x40, polled after the one at DOE_BASE. -/
def twoDoes : Config := { Config.default with furtherBases := [0x40], pollOrder := [.doe, .furtherDoe 0] }

/-- Reset with that further DOE, whose registers are `d`. -/
def twin (d : DoeUnit) : State := { State.reset with cfg := twoDoes, further := [d] }

/-- A DOE with a command accepted at time 0. -/
def busy (control : Word) : DoeUnit := { builtDoe with control := control, pending := some 1000 }

/-- Reset under a configuration, with one other peripheral. -/
def start (cfg : Config) : State := { State.reset with cfg := cfg, peripherals := [7] }

/-- Reset with a command accepted at time 0. -/
def accepted (control : Word) : State := { State.reset with control := control, pending := some 1000 }

/-- Reset with KV_SLOTS = 4. -/
def small : State := { State.reset with kv := List.replicate 4 (zeros 64) }

/-- Reset where the cipher fails on every call with zero key and IV. -/
def failing : State :=
  { State.reset with cfg := { Config.default with
      cipherFailures := [⟨zeros 32, zeros 16, (zeros 48).toList⟩, ⟨zeros 32, zeros 16, (zeros 64).toList⟩] } }

/-- Something about the state a result leaves. -/
def after {α : Type} (r : Result) (f : State → α) : Option α :=
  match r with
  | .next s => some (f s)
  | _ => none

/-- The outcome the driver receives. -/
def answer (r : Result) : Option Response := (after r (·.response)).join

/-- The oldest request is this one. -/
def asking (r : Request) (s : State) : State := { s with requests := [r] }

/-- The fault a bus access answers. -/
def faultOf (r : Result) : Option BusFault :=
  match answer r with
  | some (.fault f) => some f
  | _ => none

/-- A read at an offset from DOE_BASE. -/
def readAt (size : AccessSize) (off : Word) (s : State) : Result := step (asking (encodeOperation (.read size off)) s)

/-- A write at an offset from DOE_BASE. -/
def writeAt (size : AccessSize) (off v : Word) (s : State) : Result := step (asking (encodeOperation (.write size off v)) s)

/-! ## Decoding: words written out bit by bit from R81 and R86 -/

/-- OP 00, SZ 10, OFF 0xC: ENC-13. -/
theorem test_decode_readIv :
    decode 0b00_10_0000_0000_0000_0000_0000_0000_0000_1100 .none = .row (.readIv 3) := by decide

/-- OP 00, SZ 10, OFF 0x10: ENC-14, ENC-25. -/
theorem test_decode_readControl :
    decode 0b00_10_0000_0000_0000_0000_0000_0000_0001_0000 .none = .row .readControl := by decide

/-- OP 01, SZ 10, OFF 4: ENC-15. -/
theorem test_decode_writeIv :
    decode 0b01_10_0000_0000_0000_0000_0000_0000_0000_0100 (.data 0x07060504) = .row (.writeIv 1 0x07060504) := by decide

/-- OP 01, SZ 10, OFF 0x10: ENC-16. -/
theorem test_decode_writeControl :
    decode 0b01_10_0000_0000_0000_0000_0000_0000_0001_0000 (.data 9) = .row (.writeControl 9) := by decide

/-- OP 10, SZ 00, OFF 0: ENC-17. -/
theorem test_decode_advance :
    decode 0b10_00_0000_0000_0000_0000_0000_0000_0000_0000 (.ticks 1000) = .row (.advance 1000) := by decide

/-- CMD 00, DEST 0, FLOW_DONE 1: ENC-4. -/
theorem test_decode_idle : decodeControl 0b00000000000000000000000000_1_000_00 = .idle 0 true 0 := by decide

/-- CMD 01, DEST 2, FLOW_DONE 0, RSV 0x2AF3401: ENC-10. -/
theorem test_decode_deobfuscateUds :
    decodeControl 0b10101011110011010000000001_0_010_01 = .deobfuscateUds 2 false 0x2AF3401 := by decide

/-- CMD 10, DEST 7: ENC-3. -/
theorem test_decode_deobfuscateFe :
    decodeControl 0b00000000000000000000000000_0_111_10 = .deobfuscateFe 7 false 0 := by decide

/-- All ones: ENC-11. -/
theorem test_decode_clearSecrets : decodeControl 0xFFFFFFFF = .clearSecrets 7 true 0x3FFFFFF := by decide

/-- ENC-22, ENC-23, a payload R85 does not give, and a payload missing. -/
theorem test_decode_rejects :
    decode 0xC00000000 .none = .rejected .reservedOp ∧ decode 0x900000000 (.ticks 0) = .rejected .advanceFields ∧
    decode 0x800000004 (.ticks 0) = .rejected .advanceFields ∧
    decode 0x200000000 (.data 0) = .rejected .payloadMismatch ∧
    decode 0x600000010 .none = .rejected .payloadMismatch := by decide

/-- ENC-18, ENC-19, ENC-20, ENC-21: hardware requests that match no row. -/
theorem test_decode_unmatched :
    decode 0x500000010 (.data 1) = .unmatched (.write .half 0x10 1) ∧
    decode 0x300000010 .none = .unmatched (.read .invalid 0x10) ∧
    decode 0x200000014 .none = .unmatched (.read .word 0x14) ∧
    decode 0x2FFFFFFFC .none = .unmatched (.read .word 0xFFFFFFFC) := by decide

/-- ENC-1 to ENC-8. -/
theorem test_encodeControl :
    encodeControl .deobfuscateUds 2 false 0 = 0x9 ∧ encodeControl .clearSecrets 0 false 0 = 0x3 ∧
    encodeControl .deobfuscateFe 7 false 0 = 0x1E ∧ encodeControl .idle 0 true 0 = 0x20 ∧
    encodeControl .deobfuscateFe 5 false 0 = 0x16 ∧ encodeControl .deobfuscateUds 6 false 0 = 0x19 ∧
    encodeControl .deobfuscateUds 2 false 1 = 0x49 := by decide

/-- ENC-12 to ENC-17, written from the encoder's side. -/
theorem test_encode_keys :
    encode (.readIv 0) = .transaction 0x200000000 .none ∧ encode .readControl = .transaction 0x200000010 .none ∧
    encode (.writeIv 1 5) = .transaction 0x600000004 (.data 5) ∧
    encode (.writeControl 9) = .transaction 0x600000010 (.data 9) ∧
    encode (.advance 1000) = .transaction 0x800000000 (.ticks 1000) := by decide

/-- The host's words: a row of each format, and words that are none. -/
theorem test_decodeTableWord :
    decodeTableWord 40 0x20000000C = some (.readIv 3) ∧ decodeTableWord 36 0x800000000 = some (.advance 0) ∧
    decodeTableWord 32 0x1E = some (.deobfuscateFe 7 false 0) ∧ decodeTableWord 40 0xC00000000 = none ∧
    decodeTableWord 40 0x1200000000 = none := by decide

/-- A script's register names and pseudo-operations give P1's keys, at any base (R95, R96). -/
theorem test_script_keys :
    scriptSetIv highBase 1 2 3 4 = [.transaction 0x600000000 (.data 1), .transaction 0x600000004 (.data 2),
      .transaction 0x600000008 (.data 3), .transaction 0x60000000C (.data 4)] ∧
    scriptCmd highBase .deobfuscateUds 2 = .transaction 0x600000010 (.data 9) := by decide

/-! ## Well-formedness: each check refuses an ill-formed term -/

/-- R92, R94, R60. -/
theorem test_wf_request :
    (Request.transaction 0x200000000 .none).wf = true ∧ (Request.transaction 0xC00000000 .none).wf = false ∧
    (Request.transaction 0x900000000 (.ticks 1)).wf = false ∧ (Request.transaction 0x600000000 .none).wf = false ∧
    (Request.transaction 0x200000000 (.data 1)).wf = false ∧ (Request.fetch 0).wf = false := by decide

/-- R151: width, end of the word, distinct names, distinct patterns, pattern width. -/
theorem test_wf_field :
    cmdField.wf = true ∧ ({ cmdField with width := 0 } : RegField Cmd).wf = false ∧
    ({ cmdField with off := 31 } : RegField Cmd).wf = false ∧
    ({ cmdField with legal := some [(.idle, 0), (.idle, 1)] } : RegField Cmd).wf = false ∧
    ({ cmdField with legal := some [(.idle, 0), (.clearSecrets, 0)] } : RegField Cmd).wf = false ∧
    ({ cmdField with legal := some [(.idle, 4)] } : RegField Cmd).wf = false := by decide

/-- R151: overlapping fields are refused. -/
theorem test_wf_layout :
    Layout.wf controlLayout = true ∧ Layout.wf [cmdField, { destField with off := 1 }] = false ∧
    (Register.make 0 controlLayout).isSome = true ∧ Register.make 0 [cmdField, { destField with off := 1 }] = none := by
  decide

/-- R51, R61: an empty region, one past 2^32, a granularity of 3, a misaligned base. -/
theorem test_wf_region :
    (⟨0, 0, 4, .doeIv⟩ : Region).wf = false ∧ (⟨0xFFFFFFFC, 8, 4, .doeIv⟩ : Region).wf = false ∧
    (⟨0, 8, 3, .doeIv⟩ : Region).wf = false ∧ (⟨2, 8, 4, .doeIv⟩ : Region).wf = false ∧
    (⟨0xFFFFFFFC, 4, 4, .doeIv⟩ : Region).wf = true := by decide

/-- R8, R52, R69: a misaligned base, one too high, an overlap, a region or poller of no peripheral, a poller named twice. -/
theorem test_wf_config :
    Config.default.wf 0 = true ∧ highBase.wf 0 = true ∧ shared.wf 1 = true ∧ shared.wf 0 = false ∧
    ({ Config.default with doeBase := 2 } : Config).wf 0 = false ∧
    ({ Config.default with doeBase := 0xFFFFFFF0 } : Config).wf 0 = false ∧
    ({ shared with doeBase := 0xF4 } : Config).wf 1 = false ∧
    ({ Config.default with pollOrder := [.doe, .doe] } : Config).wf 0 = false ∧
    ({ Config.default with pollOrder := [.peripheral 0] } : Config).wf 0 = false := by decide

/-- R224, R8, R52: a further DOE is accepted, polled or not; a misaligned base, one too high, one that overlaps DOE_BASE's
regions, and a poller of no further DOE are refused. -/
theorem test_wf_further :
    twoDoes.wf 0 = true ∧ ({ twoDoes with pollOrder := [.furtherDoe 0] } : Config).wf 0 = true ∧
    ({ twoDoes with furtherBases := [0x42] } : Config).wf 0 = false ∧
    ({ twoDoes with furtherBases := [0xFFFFFFF0] } : Config).wf 0 = false ∧
    ({ twoDoes with furtherBases := [0x10] } : Config).wf 0 = false ∧
    ({ twoDoes with furtherBases := [] } : Config).wf 0 = false := by decide

/-- R8, R52: no slot, and an ill-formed configuration, are refused at construction. -/
theorem test_wf_params :
    Params.default.wf = true ∧ ({ Params.default with kv0 := [] } : Params).wf = false ∧
    ({ Params.default with cfg := { shared with doeBase := 0xF4 }, peripherals0 := [0] } : Params).wf = false := by decide

/-! ## READ.IV, WRITE.IV -/

/-- DOE-1 at the highest base: the word written to IV1 reads back, IV0 stays. -/
theorem test_readIv :
    answer (exec (.readIv 1) { start highBase with iv := #v[0, 0, 0, 0, 4, 5, 6, 7, 0, 0, 0, 0, 0, 0, 0, 0] }) =
      some (.value 0x07060504) := by decide

/-- The same bytes in the other order (R56). -/
theorem test_readIv_be :
    answer (exec (.readIv 1) { start { Config.default with ivByteOrder := .be } with
      iv := #v[0, 0, 0, 0, 4, 5, 6, 7, 0, 0, 0, 0, 0, 0, 0, 0] }) = some (.value 0x04050607) := by decide

/-- BUS-17. -/
theorem test_writeIv :
    after (exec (.writeIv 3 0x0F0E0D0C) (start highBase)) (·.iv) =
      some #v[0, 0, 0, 0, 0, 0, 0, 0, 0, 0, 0, 0, 0x0C, 0x0D, 0x0E, 0x0F] := by decide

/-- A word of ENC-27. -/
theorem test_writeIv_be :
    after (exec (.writeIv 0 0x03020100) (start { Config.default with ivByteOrder := .be })) (·.iv) =
      some #v[3, 2, 1, 0, 0, 0, 0, 0, 0, 0, 0, 0, 0, 0, 0, 0] := by decide

/-! ## READ.CONTROL, WRITE.CONTROL -/

/-- BUS-22: the first of the two reads leaves FLOW_DONE. -/
theorem test_readControl :
    answer (exec .readControl (accepted 0x29)) = some (.value 0x29) ∧
    after (exec .readControl (accepted 0x29)) (·.control) = some 0x29 := by decide

/-- DOE-4: FLOW_DONE is cleared; the fire is 1000 ticks ahead. -/
theorem test_writeControl :
    after (exec (.writeControl 0x2B) State.reset) (fun s => (s.control, s.pending, doeState s)) =
      some (0x0B, some 1000, .commandAccepted) := by decide

/-- DOE-9 (b): an Idle write stores FLOW_DONE and schedules nothing; and it keeps what is pending (R175). -/
theorem test_writeControl_idle :
    after (exec (.writeControl 0x20) State.reset) (fun s => (s.control, s.pending, doeState s)) =
      some (0x20, none, .completed) ∧
    after (exec (.writeControl 0) (accepted 9)) (fun s => (s.control, s.pending)) = some (0, some 1000) := by decide

/-! ## ADVANCE -/

/-- TM-5 and TM-6: nothing at 999, the fire at 1000. -/
theorem test_advance :
    after (exec (.advance 999) (accepted 3)) (fun s => (s.now, s.control, s.pending)) = some (999, 3, some 1000) ∧
    after (exec (.advance 1) { accepted 3 with now := 999 }) (fun s => (s.now, s.control, s.pending)) =
      some (1000, 0x23, none) := by decide

/-- TM-12: time does not wrap. -/
theorem test_advance_no_wrap :
    after (exec (.advance 1000) { accepted 3 with now := 2 ^ 64 - 1, pending := some (2 ^ 64 + 999) })
      (fun s => (s.now, s.control)) = some (2 ^ 64 + 999, 0x23) := by decide

/-! ## The commands -/

/-- DOE-9 (a): the fire of an Idle CMD. -/
theorem test_idle : after (step ((accepted 0).withFetchWord 32 0x0)) (·.control) = some 0x20 := by decide

/-- DOE-6: the slot is the plaintext padded with zeros; the plaintext itself is a free value. -/
theorem test_deobfuscateUds :
    after (exec (.deobfuscateUds 2 false 0) (accepted 9)) (·.kv[2]?) =
      some (some (Config.aes256CbcPlaintext 3 (zeros 32) (zeros 16) (zeros 48) ++ zeros 16)) := by rfl

/-- DOE-14: DEST 6 of four slots. -/
theorem test_deobfuscateUds_fatal :
    after (exec (.advance 1000) { small with control := 0x19, pending := some 1000 })
      (fun s => (s.fatal, s.control, s.pending, s.response)) =
      some (some (.vaultWrite 6), 0x19, none, some (.stuck (.vaultWrite 6))) := by decide

/-- DOE-7: the whole slot, and no other. -/
theorem test_deobfuscateFe :
    after (exec (.deobfuscateFe 5 false 0) (accepted 0x16)) (·.kv[5]?) =
      some (some (Config.aes256CbcPlaintext 4 (zeros 32) (zeros 16) (zeros 64))) ∧
    after (exec (.deobfuscateFe 5 false 0) (accepted 0x16)) (·.kv[4]?) = some (some (zeros 64)) := ⟨rfl, rfl⟩

/-- A failing cipher (R186). -/
theorem test_deobfuscateFe_cipher :
    after (exec (.deobfuscateFe 5 false 0) failing) (fun s => (s.fatal, s.control)) = some (some .cipherFail, 0) := by
  decide

/-- DOE-8. -/
theorem test_clearSecrets :
    after (exec (.clearSecrets 0 false 0)
      { accepted 3 with uds := .replicate 48 1, fe := .replicate 64 2, doekey := .replicate 32 3 })
      (fun s => (s.uds, s.fe, s.doekey, s.control)) = some (zeros 48, zeros 64, zeros 32, 0x23) := by decide

/-- DOE-15: DEST 7 of four slots does not matter. -/
theorem test_clearSecrets_dest :
    after (exec (.advance 1000) { small with control := 0x1F, pending := some 1000 })
      (fun s => (s.fatal, s.control)) = some (none, 0x3F) := by decide

/-! ## The bus -/

/-- BUS-3, BUS-4, BUS-14 to BUS-16, FLT-1: no owner. -/
theorem test_bus_unowned :
    faultOf (readAt .word 0x14 State.reset) = some ⟨.access, .read, .word, 0x14⟩ ∧
    faultOf (writeAt .word 0x14 1 State.reset) = some ⟨.access, .write, .word, 0x14⟩ ∧
    faultOf (readAt .invalid 0x14 State.reset) = some ⟨.access, .read, .invalid, 0x14⟩ ∧
    faultOf (readAt .byte 0x14 State.reset) = some ⟨.access, .read, .byte, 0x14⟩ ∧
    faultOf (readAt .word 0xFFFFFFFC (start highBase)) = some ⟨.access, .read, .word, 0xFFFFFFE8⟩ := by decide

/-- BUS-5 to BUS-7, BUS-11: misaligned. -/
theorem test_bus_misaligned :
    faultOf (readAt .word 0x2 (start highBase)) = some ⟨.misaligned, .read, .word, 0xFFFFFFEE⟩ ∧
    faultOf (writeAt .word 0x11 9 State.reset) = some ⟨.misaligned, .write, .word, 0x11⟩ ∧
    faultOf (writeAt .word 0xE 1 State.reset) = some ⟨.misaligned, .write, .word, 0xE⟩ ∧
    faultOf (readAt .half 0x11 (start { Config.default with sizeMismatchFault := .access })) =
      some ⟨.misaligned, .read, .half, 0x11⟩ := by decide

/-- BUS-8 to BUS-10, BUS-12, BUS-13, BUS-18: wrong sizes under both switches. -/
theorem test_bus_size :
    (faultOf (readAt .byte 0x10 State.reset)).map (·.kind) = some .misaligned ∧
    (faultOf (readAt .byte 0x11 (start { Config.default with sizeMismatchFault := .access }))).map (·.kind) =
      some .access ∧
    (faultOf (readAt .half 0x10 State.reset)).map (·.kind) = some .misaligned ∧
    (faultOf (writeAt .half 0x12 3 (start { Config.default with sizeMismatchFault := .access }))).map (·.kind) =
      some .access ∧
    (faultOf (readAt .invalid 0x10 State.reset)).map (·.kind) = some .misaligned ∧
    (faultOf (writeAt .byte 0 0xFF (start { Config.default with sizeMismatchFault := .access }))).map (·.kind) =
      some .access := by decide

/-- A region of another peripheral takes its own size, refuses others, and ends at its end (R61, R125, R126). -/
theorem test_bus_other :
    check shared .read .half 0x106 = .ok ⟨0x100, 8, 2, .peripheral 0 5⟩ ∧
    check shared .read .word 0x104 = .error ⟨.misaligned, .read, .word, 0x104⟩ ∧
    check { shared with otherRegions := [⟨0x100, 6, 4, .peripheral 0 5⟩] } .read .word 0x104 =
      .error ⟨.access, .read, .word, 0x104⟩ := by
  refine ⟨rfl, rfl, rfl⟩

/-- FLT-6: a fault is returned and the next request runs. -/
theorem test_bus_goes_on :
    answer (issueAll [scriptWrite .default .word 0x11 9, scriptRead .default .word 0x10] (accepted 9)) =
      some (.value 9) := by decide

/-- R210: the codes of the faults; FLT-1, FLT-2, FLT-4. -/
theorem test_fault_codes :
    faultCode (.fault ⟨.access, .read, .word, 0x14⟩) = some 1 ∧
    faultCode (.fault ⟨.misaligned, .read, .word, 0x2⟩) = some 2 ∧ faultCode (.stuck (.vaultWrite 6)) = some 3 ∧
    faultCode .done = none := by decide

/-! ## A further DOE (R224) -/

/-- DOE-4 and BUS-17 at the further base: its registers change, those of the DOE at DOE_BASE do not; RST-1 there. -/
theorem test_further_registers :
    after (writeAt .word 0x50 0x2B (twin builtDoe)) (fun s => (s.further.map fun d => (d.control, d.pending), s.control, s.pending)) =
      some ([(0x0B, some 1000)], 0, none) ∧
    after (writeAt .word 0x4C 0x0F0E0D0C (twin builtDoe)) (fun s => (s.further.map (·.iv), s.iv)) =
      some ([#v[0, 0, 0, 0, 0, 0, 0, 0, 0, 0, 0, 0, 0x0C, 0x0D, 0x0E, 0x0F]], zeros 16) ∧
    answer (readAt .word 0x50 (twin builtDoe)) = some (.value 0) ∧
    faultOf (readAt .word 0x54 (twin builtDoe)) = some ⟨.access, .read, .word, 0x54⟩ := by decide

/-- DOE-8 and DOE-14 in a further DOE: the secret store and the fatal mark are the shared ones. -/
theorem test_further_fire :
    after (exec (.advance 1000) { twin (busy 3) with uds := .replicate 48 1 })
      (fun s => (s.uds, s.control, s.further.map fun d => (d.control, d.pending))) =
      some (zeros 48, 0, [(0x23, none)]) ∧
    after (exec (.advance 1000) { twin (busy 0x19) with kv := List.replicate 4 (zeros 64) })
      (fun s => (s.fatal, s.further.map (·.control))) = some (some (.vaultWrite 6), [0x19]) := by decide

/-! ## The register file -/

/-- RF-1 to RF-5. -/
theorem test_fieldGet :
    fieldMask cmdField = 0x3 ∧ fieldMask destField = 0x1C ∧ fieldMask flowDoneField = 0x20 ∧
    fieldGet 0x29 destField = 2 ∧ fieldGet 0xFFFFFFE3 destField = 0 := by decide

/-- RF-6 to RF-8. -/
theorem test_fieldSet :
    fieldSet 0x9 flowDoneField 1 = some 0x29 ∧ fieldSet 0xFFFFFFFF destField 0 = some 0xFFFFFFE3 ∧
    fieldSet 0 destField 8 = none := by decide

/-- RF-9 to RF-11. -/
theorem test_compose :
    compose [(cmdField, 1), (destField, 2)] = some 0x9 ∧ compose [(destField, 2), (cmdField, 1)] = some 0x9 ∧
    compose [(cmdField, 3), (destField, 7), (flowDoneField, 1)] = some 0x3F ∧ compose [(cmdField, 4)] = none := by decide

/-- The field G of RF-16. -/
def fieldG : RegField Char := { name := "G", off := 0, width := 2, legal := some [('A', 0), ('B', 1)] }

/-- RF-12 to RF-17. -/
theorem test_enum :
    enumGet 0x3 cmdField = some .clearSecrets ∧ enumGet 0xFFFFFFFC cmdField = some .idle ∧
    enumSet 0 cmdField .deobfuscateFe = some 0x2 ∧ enumSet 0x20 cmdField .clearSecrets = some 0x23 ∧
    enumGet 0x2 fieldG = none ∧ enumSet 0 fieldG 'C' = none := by decide

/-- RF-18 to RF-20. -/
theorem test_modify :
    modifyWord 0x29 [(flowDoneField, 0)] = some 0x9 ∧ modifyWord 0xABCD0049 [(flowDoneField, 1)] = some 0xABCD0069 ∧
    modifyWord 0x20 [(cmdField, 1), (destField, 2)] = some 0x29 ∧
    modifyWord 0x20 [(destField, 2), (cmdField, 1)] = some 0x29 ∧
    (modifyRegister ⟨0x29, controlLayout⟩ [(flowDoneField, 0)]).map (·.raw) = some 0x9 := by decide

/-! ## Timer, fatal, construction, scripts -/

/-- TM-1 to TM-4. -/
theorem test_timer :
    schedule 42 1000 = some 1042 ∧ fired 1041 (some 1042) = (false, some 1042) ∧ fired 1042 (some 1042) = (true, none) ∧
    fired 5000 (some 1042) = (true, none) := by decide

/-- BUS-20: a stuck machine has no step. -/
theorem test_stuck : step { State.reset with fatal := some .cipherFail } = .fault (.stuckFatal .cipherFail) := by rfl

/-- RST-1, RST-3. -/
theorem test_reset :
    answer (readAt .word 0x10 State.reset) = some (.value 0) ∧ answer (readAt .word 0xC State.reset) = some (.value 0) ∧
    doeState State.reset = .idle := by decide

/-- The vault's test port: a slot, and none past the last (R192). -/
theorem test_vault :
    State.reset.readKey 7 = some (zeros 64) ∧ State.reset.readKey 8 = none ∧
    (State.reset.writeKey 7 (.replicate 64 1)).isSome = true ∧ (State.reset.writeKey 8 (zeros 64)).isNone = true := by
  decide

/-- P2: WAITDONE 100 ends after ten rounds, at now = 1000. -/
theorem test_waitDone : (waitDone 100 10 (accepted 3)).map (fun p => (p.1, p.2.now, p.2.control)) = some (10, 1000, 0x23) := by
  decide

/-! ## Witnesses: states and operands that meet each statement's hypotheses together -/

theorem witness_DecodedWordsReencode : decode 0x20000000C .none = .row (.readIv 3) := by decide

theorem witness_OpcodeRowsDoNotOverlap :
    ∃ r ∈ tRows, r.matchesKey 0x20000000C = true := by decide

theorem witness_ReservedRequestsAreRefused :
    State.reset.fatal = none ∧ (0xC00000000 : Key).extractLsb' 34 2 = 3 ∧ (0xFFFFFFFFF : Key).extractLsb' 34 2 = 3 ∧
    (0x900000000 : Key).extractLsb' 34 2 = 2 ∧ (0x900000000 : Key).extractLsb' 32 2 ≠ 0 ∧
    (0x800000001 : Key).extractLsb' 34 2 = 2 ∧ (0x800000001 : Key).extractLsb' 0 32 ≠ 0 ∧
    (asking (.transaction 0xC00000000 .none) State.reset).requests = [.transaction 0xC00000000 .none] ∧
    (asking (.fetch 0) State.reset).requests = [.fetch 0] := by decide

theorem witness_StepRunsDecodedRow :
    (asking (.transaction 0x20000000C .none) State.reset).fatal = none ∧
    (asking (.transaction 0x20000000C .none) State.reset).requests = .transaction 0x20000000C .none :: [] ∧
    decode 0x20000000C .none = .row (.readIv 3) ∧ State.reset.requests = [] := by decide

/-- At the fire time itself, and past it. -/
theorem witness_FireRunsCommandInControl :
    ({ accepted 9 with now := 1000 } : State).fatal = none ∧ ({ accepted 9 with now := 1000 } : State).pending = some 1000 ∧
    1000 ≤ ({ accepted 9 with now := 1000 } : State).now := by decide

/-- The first and the last byte the DOE owns, at the highest base. -/
theorem witness_UnmatchedDoeRequestFaults :
    (start highBase).cfg.wf (start highBase).peripherals.length = true ∧ (start highBase).fatal = none ∧
    decode 0x000000000 .none = .unmatched (.read .byte 0) ∧
    decode 0x500000013 (.data 1) = .unmatched (.write .half 0x13 1) ∧
    highBase.doeBase.toNat ≤ (highBase.doeBase + (0x000000000 : Key).extractLsb' 0 32).toNat ∧
    (highBase.doeBase + (0x000000000 : Key).extractLsb' 0 32).toNat < highBase.doeBase.toNat + 0x14 ∧
    highBase.doeBase.toNat ≤ (highBase.doeBase + (0x500000013 : Key).extractLsb' 0 32).toNat ∧
    (highBase.doeBase + (0x500000013 : Key).extractLsb' 0 32).toNat < highBase.doeBase.toNat + 0x14 := by decide

/-- For every statement whose premises are a live machine and a well-formed configuration. -/
theorem witness_live :
    (start highBase).cfg.wf (start highBase).peripherals.length = true ∧ (start highBase).fatal = none ∧
    (start shared).cfg.wf (start shared).peripherals.length = true ∧ (start shared).fatal = none := by decide

/-- Of both kinds of CONTROL word: a command, with FLOW_DONE and DEST written or not, and Idle. -/
theorem witness_WriteControl :
    (start highBase).cfg.wf (start highBase).peripherals.length = true ∧ (start highBase).fatal = none ∧
    (0xFFFFFFFF : Word).extractLsb' 0 2 ≠ 0 ∧ (1 : Word).extractLsb' 0 2 ≠ 0 ∧
    (0xFFFFFFFC : Word).extractLsb' 0 2 = 0 := by decide

/-- A quiet ADVANCE, a fatal one, and the two cases of the fan-out. -/
theorem witness_AdvanceMovesTimeThenPolls :
    State.reset.fatal = none ∧ (pollAll [.doe] State.reset).fatal = none ∧
    (pollAll [.doe] { small with control := 0x19, pending := some 0 }).fatal = some (.vaultWrite 6) ∧
    (poll .doe State.reset).fatal = none ∧ (poll .doe { small with control := 0x19, pending := some 0 }).fatal ≠ none := by
  decide

/-- The last tick before the fire, and nothing pending. -/
theorem witness_AdvanceBeforeFireChangesOnlyTime :
    (accepted 9).fatal = none ∧ (accepted 9).cfg.pollOrder = [.doe] ∧
    (∀ t ∈ (accepted 9).pending, (accepted 9).now + 999 < t) ∧ State.reset.pending = none := by
  refine ⟨rfl, rfl, ?_, rfl⟩
  intro t h
  cases h
  decide

/-- The last slot, with a cipher that fails elsewhere. -/
theorem witness_DeobfuscateWritesSlot :
    failing.fatal = none ∧ (7 : BitVec 3).toNat < failing.kv.length ∧
    (⟨failing.doekey, .replicate 16 1, failing.uds.toList⟩ : CipherCall) ∉ failing.cfg.cipherFailures ∧
    (⟨failing.doekey, .replicate 16 1, failing.fe.toList⟩ : CipherCall) ∉ failing.cfg.cipherFailures := by decide

/-- The first index past four slots, and failing calls of both lengths. -/
theorem witness_DecryptFireCanGoFatal :
    small.fatal = none ∧ small.kv.length ≤ (4 : BitVec 3).toNat ∧ failing.fatal = none ∧
    (7 : BitVec 3).toNat < failing.kv.length ∧
    (⟨failing.doekey, failing.iv, failing.uds.toList⟩ : CipherCall) ∈ failing.cfg.cipherFailures ∧
    (⟨failing.doekey, failing.iv, failing.fe.toList⟩ : CipherCall) ∈ failing.cfg.cipherFailures := by decide

/-- Both commands, and both endings. -/
theorem witness_DecryptFireWritesOneSlot :
    (∃ t, exec (.deobfuscateUds 7 false 0) State.reset = .next t ∧ t.fatal = none) ∧
    (∃ t, exec (.deobfuscateFe 4 false 0) small = .next t ∧ t.fatal ≠ none) :=
  ⟨⟨_, rfl, rfl⟩, ⟨_, rfl, by decide⟩⟩

theorem witness_FireSetsFlowDoneUnlessFatal :
    ({ accepted 3 with now := 1000 } : State).fatal = none ∧
    (doePoll { accepted 3 with now := 1000 }).fatal = none ∧
    (doePoll { small with control := 0x19, pending := some 0 }).fatal ≠ none := by decide

theorem witness_StuckMachineHasNoStep :
    ({ State.reset with fatal := some (.vaultWrite 6) } : State).fatal = some (.vaultWrite 6) := rfl

/-- Both decrypt commands, at the fire time exactly, with DEST the first index past the vault. -/
theorem witness_FatalAdvanceStopsThePolls :
    small.fatal = none ∧ small.cfg.pollOrder = .doe :: [] ∧ (1000 : Nat) ≤ small.now + 1000 ∧
    (0x11 : Word).extractLsb' 0 2 = 1 ∧ small.kv.length ≤ ((0x11 : Word).extractLsb' 2 3).toNat ∧
    (0x12 : Word).extractLsb' 0 2 = 2 ∧ small.kv.length ≤ ((0x12 : Word).extractLsb' 2 3).toNat := by decide

theorem witness_ScheduleGivesNowPlusN : ∃ t, exec (.writeControl 9) State.reset = .next t := ⟨_, rfl⟩

/-- At the time itself, and the tick before. -/
theorem witness_FiredOnceFromItsTimeOn : (1000 : Nat) ≤ 1000 ∧ (999 : Nat) < 1000 := by decide

theorem witness_PollIsIdempotent :
    (fired (accepted 9).now (accepted 9).pending).1 = false ∧ (fired 1000 (accepted 9).pending).1 = true := by decide

theorem witness_SecondCommandReplacesFirst :
    ∃ t u, exec (.writeControl 9) State.reset = .next t ∧
      exec (.writeControl 0x16) { t with now := t.now + 999 } = .next u := ⟨_, _, rfl, rfl⟩

theorem witness_PollsRunInOrder :
    (start shared).fatal = none ∧ (start shared).cfg.pollOrder = [.peripheral 0] ++ .doe :: [] ∧
    (start shared).cfg.pollOrder = [] ++ .peripheral 0 :: [.doe] ∧
    (pollAll [.peripheral 0] { start shared with now := 5 }).fatal = none ∧
    (poll .doe (pollAll [.peripheral 0] { start shared with now := 5 })).fatal = none := ⟨rfl, rfl, rfl, rfl, rfl⟩

theorem witness_FaultedAccessChangesNothing :
    State.reset.fatal = none ∧ check State.reset.cfg .read .word 0x14 = .error ⟨.access, .read, .word, 0x14⟩ ∧
    check State.reset.cfg .write .word 2 = .error ⟨.misaligned, .write, .word, 2⟩ := ⟨rfl, rfl, rfl⟩

/-- The first byte past the DOE and the last before it, at a base with room on both sides. -/
theorem witness_UnownedAddressIsAccessFault :
    (start { Config.default with doeBase := 0x40 }).fatal = none ∧
    (∀ r ∈ regionTable { Config.default with doeBase := 0x40 }, ¬ (r.base ≤ 0x54 ∧ 0x54 < r.base + r.len)) ∧
    (∀ r ∈ regionTable { Config.default with doeBase := 0x40 }, ¬ (r.base ≤ 0x3F ∧ 0x3F < r.base + r.len)) := by decide

/-- A wrong size at an aligned address, and a word one byte off. -/
theorem witness_BadAccessNeverReachesHandler :
    owner .default 0x10 = some ⟨0x10, 4, 4, .doeControl⟩ ∧ sizeBytes .half ≠ some 4 ∧ sizeBytes .invalid ≠ some 4 ∧
    owner .default 0x11 = some ⟨0x10, 4, 4, .doeControl⟩ ∧ (0x11 : Word).toNat % 4 ≠ 0 := by decide

/-- Each clause: no owner; an invalid size; misaligned; wrong granularity; past the end and just not past it. -/
theorem witness_FirstFailingCheckIsReported :
    owner shared 0x14 = none ∧ owner shared 0x13 = some ⟨0x10, 4, 4, .doeControl⟩ ∧ sizeBytes .invalid = none ∧
    sizeBytes .half = some 2 ∧ (0x13 : Word).toNat % 2 ≠ 0 ∧ (0x12 : Word).toNat % 2 = 0 ∧ 2 ≠ 4 ∧
    owner { shared with otherRegions := [⟨0x100, 6, 4, .peripheral 0 5⟩] } 0x104 = some ⟨0x100, 6, 4, .peripheral 0 5⟩ ∧
    0x100 + 6 < (0x104 : Word).toNat + 4 ∧
    owner shared 0x106 = some ⟨0x100, 8, 2, .peripheral 0 5⟩ ∧ (0x106 : Word).toNat + 2 ≤ 0x100 + 8 := by decide

/-- The first and the last byte, both sides of the equivalence, at DOE_BASE and at a further base. -/
theorem witness_DoeAccessNeedsAlignedWord :
    highBase.wf 0 = true ∧ twoDoes.wf 0 = true ∧ (0x40 : Word) ∈ twoDoes.doeBase :: twoDoes.furtherBases ∧
    (0x40 : Word).toNat ≤ (0x53 : Word).toNat ∧ (0x53 : Word).toNat < (0x40 : Word).toNat + 0x14 ∧
    highBase.doeBase ∈ highBase.doeBase :: highBase.furtherBases ∧ highBase.doeBase.toNat ≤ (0xFFFFFFEC : Word).toNat ∧
    (0xFFFFFFEC : Word).toNat % 4 = 0 ∧ (0xFFFFFFFF : Word).toNat < highBase.doeBase.toNat + 0x14 ∧
    (0xFFFFFFFF : Word).toNat % 4 ≠ 0 ∧ check shared .read .half 0x106 = .ok ⟨0x100, 8, 2, .peripheral 0 5⟩ :=
  ⟨by decide, by decide, by decide, by decide, by decide, by decide, by decide, by decide, by decide, by decide, rfl⟩

/-- Each target: the last IV word, CONTROL, a further DOE's last IV word and CONTROL, and another peripheral. -/
theorem witness_SuccessfulWriteChangesOnlyItsTarget :
    (start shared).cfg.wf (start shared).peripherals.length = true ∧ (start shared).fatal = none ∧
    check shared .write .word 0xC = .ok ⟨0, 0x10, 4, .doeIv⟩ ∧
    check shared .write .word 0x10 = .ok ⟨0x10, 4, 4, .doeControl⟩ ∧
    check shared .write .half 0x106 = .ok ⟨0x100, 8, 2, .peripheral 0 5⟩ ∧
    (twin builtDoe).cfg.wf (twin builtDoe).peripherals.length = true ∧ (twin builtDoe).fatal = none ∧
    check twoDoes .write .word 0x4C = .ok ⟨0x40, 0x10, 4, .furtherIv 0⟩ ∧
    check twoDoes .write .word 0x50 = .ok ⟨0x50, 4, 4, .furtherControl 0⟩ ∧ (twin builtDoe).further[0]? = some builtDoe :=
  ⟨by decide, rfl, rfl, rfl, rfl, by decide, rfl, rfl, rfl, rfl⟩

/-- A read that succeeds, and one that faults. -/
theorem witness_ReadsChangeOnlyTheResponse :
    (∃ t, step (asking (.transaction 0x200000000 .none) State.reset) = .next t) ∧
    (∃ t, step (asking (.transaction 0x200000014 .none) State.reset) = .next t) := ⟨⟨_, rfl⟩, ⟨_, rfl⟩⟩

theorem witness_RepeatedWriteLeavesSameState :
    (∃ t, exec (.writeIv 3 0x0F0E0D0C) State.reset = .next t) ∧ (∃ t, exec (.writeControl 9) State.reset = .next t) :=
  ⟨⟨_, rfl⟩, ⟨_, rfl⟩⟩

/-- The shortest region, the IV's, and the whole address space; both sides of the equivalence at the IV region's end. -/
theorem witness_AccessMaskNamesOffsetBits :
    ((⟨0x10, 1, 1, .doeIv⟩ : Region).len = 2 ^ 0) ∧ 0x10 % 1 = 0 ∧
    ((⟨0, 2 ^ 32, 4, .doeIv⟩ : Region).len = 2 ^ 32) ∧ 0 + 2 ^ 32 ≤ 2 ^ 32 ∧
    ((⟨0, 0x10, 4, .doeIv⟩ : Region).len = 2 ^ 4) ∧ owns ⟨0, 0x10, 4, .doeIv⟩ 0xF = true ∧
    owns ⟨0, 0x10, 4, .doeIv⟩ 0x10 = false := by decide

/-- A field at the top of the word, one as wide as the word, and the first value too wide. -/
theorem witness_fields :
    31 + 1 ≤ 32 ∧ 0 + 32 ≤ 32 ∧ 2 ^ destField.width ≤ 8 ∧ 7 < 2 ^ destField.width ∧
    (∀ i, 2 ≤ i → i < 5 → (0x29 : Word).getLsbD i = (0x9 : Word).getLsbD i) := by
  refine ⟨by decide, by decide, by decide, by decide, ?_⟩
  intro i h1 h2
  obtain rfl | rfl | rfl : i = 2 ∨ i = 3 ∨ i = 4 := by omega
  all_goals decide

/-- A member, a value that is none, and a field without members. -/
theorem witness_enums :
    fieldG.wf = true ∧ cmdField.wf = true ∧ destField.wf = true ∧ destField.legal = none ∧
    fieldG.legal = some [('A', 0), ('B', 1)] ∧ ('B', 1) ∈ [('A', 0), ('B', 1)] ∧
    (∀ p ∈ [0, 1, 2, 3], ('C', p) ∉ [('A', 0), ('B', 1)]) := by decide

/-- Two orders of one list; a list rejected for width and one rejected for overlap. -/
theorem witness_ComposeOrderDoesNotMatter :
    [(cmdField, 1), (destField, 2)].Perm [(destField, 2), (cmdField, 1)] ∧
    compose [(cmdField, 1), (destField, 2)] = some 0x9 ∧ compose [(cmdField, 4)] = none ∧
    compose [(cmdField, 1), (cmdField, 1)] = none := ⟨List.Perm.swap .., by decide, by decide, by decide⟩

theorem witness_ModifyOrderDoesNotMatter :
    [(cmdField, 1), (destField, 2)].Perm [(destField, 2), (cmdField, 1)] ∧
    (∀ p ∈ [(cmdField, 1), (destField, 2)], p.1.off + p.1.width ≤ 32) ∧ Layout.disjoint [cmdField, destField] = true :=
  ⟨List.Perm.swap .., by decide, by decide⟩

/-- Each clause: an accept; an Idle write over a pending command, over none with and without FLOW_DONE; an ADVANCE to the
fire time exactly, and one that stops a tick before. -/
theorem witness_DoeStateTransitions :
    State.reset.cfg.wf State.reset.peripherals.length = true ∧ State.reset.cfg.pollOrder = [.doe] ∧
    (∃ t, exec (.writeControl 3) State.reset = .next t) ∧ (∃ t, exec (.writeControl 0) (accepted 3) = .next t) ∧
    (∃ t, exec (.writeControl 0x20) State.reset = .next t) ∧
    (∃ t, exec (.advance 1000) (accepted 3) = .next t ∧ t.fatal = none) ∧ (1000 : Nat) ≤ (accepted 3).now + 1000 ∧
    (∃ t, exec (.advance 999) (accepted 3) = .next t) ∧ (accepted 3).now + 999 < 1000 :=
  ⟨by decide, rfl, ⟨_, rfl⟩, ⟨_, rfl⟩, ⟨_, rfl⟩, ⟨_, rfl, rfl⟩, by decide, ⟨_, rfl⟩, by decide⟩

theorem witness_IdleWriteMakesFireNoop :
    ∃ t u, exec (.writeControl 9) State.reset = .next t ∧ exec (.writeControl 0) t = .next u := ⟨_, _, rfl, rfl⟩

/-- DOE-11. -/
theorem witness_DecryptUsesIvOfFireTime :
    DoeAlone State.reset.cfg ∧ (7 : BitVec 3).toNat < State.reset.kv.length ∧
    (∃ t u, exec (.writeControl (encodeControl .deobfuscateUds 7 false 0)) State.reset = .next t ∧
      exec (.writeIv 3 0xFFFFFFFF) t = .next u) ∧
    (∃ t u, exec (.writeControl (encodeControl .deobfuscateFe 7 false 0)) State.reset = .next t ∧
      exec (.writeIv 0 0xFFFFFFFF) t = .next u) := ⟨⟨rfl, rfl, rfl⟩, by decide, ⟨_, _, rfl, rfl⟩, _, _, rfl, rfl⟩

/-- A READ, a WRITE and an ADVANCE, the last also with a command pending in a further DOE. -/
theorem witness_EachStateHasItsWriters :
    (∃ t, step (asking (.transaction 0x200000010 .none) (accepted 9)) = .next t) ∧
    (∃ t, step (asking (.transaction 0x600000010 (.data 3)) (accepted 9)) = .next t) ∧
    (∃ t, step (asking (.transaction 0x800000000 (.ticks 1000)) (accepted 3)) = .next t) ∧
    headOperation (asking (.transaction 0x800000000 (.ticks 1000)) (accepted 3)) = some (.advance 1000) ∧
    (∃ t, step (asking (.transaction 0x800000000 (.ticks 1000)) (twin (busy 3))) = .next t) ∧
    (twin (busy 3)).further[0]? = some (busy 3) :=
  ⟨⟨_, rfl⟩, ⟨_, rfl⟩, ⟨_, rfl⟩, by decide, ⟨_, rfl⟩, rfl⟩

theorem witness_OtherPeripheralsStayApart :
    owner (start shared).cfg 0x106 = some ⟨0x100, 8, 2, .peripheral 0 5⟩ ∧
    (∃ t, busWrite .half 0x106 0xFFFF (start shared) = .next t) ∧
    (∃ t, busWrite .word 0x106 0xFFFF (start shared) = .next t) := ⟨by decide, ⟨_, rfl⟩, ⟨_, rfl⟩⟩

/-- A step whose fire decrypts the zeros. -/
theorem witness_SecretsStayCleared :
    SecretsCleared (accepted 9) ∧ ∃ t, step (asking (scriptAdvance 1000) (accepted 9)) = .next t :=
  ⟨⟨rfl, rfl, rfl⟩, _, rfl⟩

/-- The invariant of a machine with a command pending and another peripheral. -/
theorem witness_inv : MachineInv { start shared with control := 9, pending := some 1000 } where
  cfgWf := by decide
  slots := by decide
  furtherCount := rfl
  pendingBound := by intro t h; cases h; decide
  furtherPendingBound := by intro j d t h; cases h
  pendingLater := by intro _ _ t h; cases h; decide
  furtherPendingLater := by intro _ j _ d t h; cases h
  fatalConsumed := fun h => absurd rfl h
  fatalVault := by intro d h; cases h
  fatalCipher := by intro h; cases h

/-- The invariant of a machine with a command pending in a further DOE. -/
theorem witness_inv_further : MachineInv (twin (busy 3)) where
  cfgWf := by decide
  slots := by decide
  furtherCount := rfl
  pendingBound := by intro t h; cases h
  furtherPendingBound := by
    intro j d t h ht
    cases j with
    | zero => cases h; cases ht; decide
    | succ j => cases h
  pendingLater := by intro _ _ t h; cases h
  furtherPendingLater := by
    intro _ j _ d t h ht
    cases j with
    | zero => cases h; cases ht; decide
    | succ j => cases h
  fatalConsumed := fun h => absurd rfl h
  fatalVault := by intro d h; cases h
  fatalCipher := by intro h; cases h

/-- The invariant of a stuck machine. -/
theorem witness_inv_stuck : MachineInv { small with fatal := some (.vaultWrite 4) } where
  cfgWf := by decide
  slots := by decide
  furtherCount := rfl
  pendingBound := by intro t h; cases h
  furtherPendingBound := by intro j d t h; cases h
  pendingLater := by intro h; cases h
  furtherPendingLater := by intro h; cases h
  fatalConsumed := fun _ => .inl rfl
  fatalVault := by intro d h; cases h; decide
  fatalCipher := by intro h; cases h

theorem witness_StepKeepsInvariant :
    (∃ t, step (asking (scriptAdvance 1000) { start shared with control := 9, pending := some 1000 }) = .next t) ∧
    (∃ t, step (asking (scriptAdvance 1000) (twin (busy 3))) = .next t) := ⟨⟨_, rfl⟩, ⟨_, rfl⟩⟩

theorem witness_Construction :
    Params.default.wf = true ∧ (∃ s, State.construct Params.default = .ok s) ∧
    (∃ s, State.construct { Params.default with cfg := twoDoes } = .ok s) ∧
    Region.disjoint (regionTable { shared with doeBase := 0xF4 }) = false := ⟨by decide, ⟨_, rfl⟩, ⟨_, rfl⟩, by decide⟩

/-- Two machines with different secrets and vaults, two DOEs in each. -/
theorem witness_BusCannotObserveSecrets :
    OnlyDoes (twin (busy 9)).cfg ∧
    SameOnBus (twin (busy 9)) { twin (busy 9) with uds := .replicate 48 1, kv := List.replicate 8 (.replicate 64 2) } :=
  ⟨⟨rfl, by simp [twin, twoDoes], rfl⟩, rfl, rfl⟩

/-- Every premise of the two liveness statements, WAITDONE's fuel at its least included. -/
theorem witness_liveness :
    MachineInv State.reset ∧ DoeAlone State.reset.cfg ∧ 8 ≤ State.reset.kv.length ∧ State.reset.pending = none ∧
    flowDone State.reset.control = false ∧ (∃ t, exec (.writeControl 0x1F) State.reset = .next t) ∧
    (0x1F : Word).extractLsb' 0 2 ≠ 0 ∧ (1000 + 300 - 1) / 300 ≤ 4 := by
  refine ⟨⟨by decide, by decide, rfl, ?_, ?_, ?_, ?_, fun h => absurd rfl h, ?_, ?_⟩, ⟨rfl, rfl, rfl⟩, by decide, rfl,
    by decide, ⟨_, rfl⟩, by decide, by decide⟩
  · intro t h; cases h
  · intro j d t h; cases h
  · intro _ _ t h; cases h
  · intro _ j _ d t h; cases h
  · intro d h; cases h
  · intro h; cases h

/-- The last IV word and CONTROL of a further DOE, with a command and with Idle. -/
theorem witness_FurtherDoeRegistersAreItsOwn :
    (twin (busy 9)).cfg.wf (twin (busy 9)).peripherals.length = true ∧ (twin (busy 9)).fatal = none ∧
    (twin (busy 9)).cfg.furtherBases[0]? = some 0x40 ∧ (twin (busy 9)).further[0]? = some (busy 9) ∧
    (0x2B : Word).extractLsb' 0 2 ≠ 0 ∧ (0x20 : Word).extractLsb' 0 2 = 0 := by decide

/-- At the fire time exactly, into the last slot. -/
theorem witness_FurtherDoePollsShareTheVault :
    ({ twin (busy 0x1E) with cfg := { twoDoes with pollOrder := [.furtherDoe 0] } } : State).fatal = none ∧
    (twin (busy 0x1E)).further[0]? = some (busy 0x1E) ∧ (busy 0x1E).pending = some 1000 ∧
    (1000 : Nat) ≤ (twin (busy 0x1E)).now + 1000 ∧ (busy 0x1E).control = encodeControl .deobfuscateFe 7 false 0 ∧
    (7 : BitVec 3).toNat < (twin (busy 0x1E)).kv.length ∧
    (⟨(twin (busy 0x1E)).doekey, (busy 0x1E).iv, (twin (busy 0x1E)).fe.toList⟩ : CipherCall) ∉ twoDoes.cipherFailures := by
  decide

end Sys2Proof.Tests
end

section
/-! PROOFS. Memory: the polls of an ADVANCE in order (R69), and the accesses the bus checks reject (R55, R58, R59). -/

namespace Sys2Proof.Machine

/-! ## The poll fan-out -/

/-- No polls change nothing. -/
@[simp] theorem pollAll_nil (s : State) : pollAll [] s = s := rfl

/-- After a poll that is not fatal, the remaining polls run on what it left (R69, R101). -/
theorem pollAll_cons_live {p : Poller} {s : State} (ps : List Poller) (h : (poll p s).fatal = none) :
    pollAll (p :: ps) s = pollAll ps (poll p s) := by
  simp [pollAll, h]

/-- After a fatal poll the remaining polls are not run (R101, R214). -/
theorem pollAll_cons_stuck {p : Poller} {s : State} {c : FatalInfo} (ps : List Poller) (h : (poll p s).fatal = some c) :
    pollAll (p :: ps) s = poll p s := by
  simp [pollAll, h]

/-- The polls of a list in two parts: if the first part ends live, the second runs on what the first left (R69). -/
theorem pollAll_append {qs : List Poller} :
    ∀ {ps : List Poller} {s : State}, (pollAll ps s).fatal = none → pollAll (ps ++ qs) s = pollAll qs (pollAll ps s)
  | [], _, _ => rfl
  | p :: ps, s, h => by
    cases hp : (poll p s).fatal with
    | none =>
      rw [pollAll_cons_live ps hp] at h
      rw [List.cons_append, pollAll_cons_live _ hp, pollAll_cons_live ps hp, pollAll_append h]
    | some c =>
      rw [pollAll_cons_stuck ps hp, hp] at h
      cases h

/-- A live machine's ADVANCE answers what its polls left (R101). -/
theorem exec_advance_live {s : State} (hl : s.fatal = none) (n : Nat) :
    exec (.advance n) s = .next ((advanced n s).respond (advanceResponse (advanced n s))) :=
  ifLive_live hl _

/-- Settles O29: the fan-out over `ps ++ p :: qs` is the one over `ps`, then `p`, then the one over `qs`. -/
theorem pollsRunInOrder : Obligations.PollsRunInOrder := by
  refine ⟨pollAll_nil, ?_⟩
  rintro n s u ps qs p hl hOrder hBefore rfl hPoll
  have hAll : advanced n s = pollAll qs (poll p (pollAll ps { s with now := s.now + n })) := by
    rw [advanced, hOrder, pollAll_append hBefore, pollAll_cons_live qs hPoll]
  rw [exec_advance_live hl, hAll]

/-! ## The check pipeline -/

/-- An address that no region owns has no owner (R51). -/
theorem owner_eq_none {cfg : Config} {addr : Word}
    (h : ∀ r ∈ regionTable cfg, ¬ (r.base ≤ addr.toNat ∧ addr.toNat < r.base + r.len)) : owner cfg addr = none := by
  refine List.find?_eq_none.mpr fun r hr ho => h r hr ?_
  simpa [owns] using ho

/-- The first check: an address without an owner is an AccessFault (R55, R122). -/
theorem check_unowned {cfg : Config} {addr : Word} (h : owner cfg addr = none) (op : AccessKind) (size : AccessSize) :
    check cfg op size addr = .error ⟨.access, op, size, addr⟩ := by
  simp [check, h]

/-- When a check passes: the owner's granularity as size, an aligned address, and no byte past the region's end (R121). -/
theorem check_eq_ok_iff {cfg : Config} {op : AccessKind} {size : AccessSize} {addr : Word} {r : Region} :
    check cfg op size addr = .ok r ↔
      owner cfg addr = some r ∧ sizeBytes size = some r.gran ∧ addr.toNat % r.gran = 0 ∧
        addr.toNat + r.gran ≤ r.base + r.len := by
  refine ⟨check_ok, ?_⟩
  rintro ⟨hOwner, hSize, hAligned, hEnd⟩
  simp only [check, hOwner, hSize]
  rw [if_neg (by omega), if_neg (by omega), if_neg (by omega)]

/-- A wrong size or a misaligned address fails some check (R58, R121). -/
theorem check_error_of_bad {cfg : Config} {size : AccessSize} {addr : Word} {r : Region} (hOwner : owner cfg addr = some r)
    (hBad : sizeBytes size ≠ some r.gran ∨ addr.toNat % r.gran ≠ 0) (op : AccessKind) :
    ∃ f, check cfg op size addr = .error f := by
  cases hc : check cfg op size addr with
  | error f => exact ⟨f, rfl⟩
  | ok q =>
    obtain ⟨hq, hSize, hAligned, -⟩ := check_ok hc
    obtain rfl : r = q := Option.some.inj (hOwner.symm.trans hq)
    exact absurd hBad (by simp [hSize, hAligned])

/-! ## READ and WRITE of a rejected access -/

/-- A READ whose check fails returns the fault and changes nothing else (R128, R129). -/
theorem busRead_of_check_error {s : State} {size : AccessSize} {addr : Word} {f : BusFault} (hl : s.fatal = none)
    (h : check s.cfg .read size addr = .error f) :
    busRead size addr s = .next { s with response := some (.fault f) } := by
  rw [busRead, ifLive_live hl, h]
  rfl

/-- A WRITE whose check fails returns the fault and changes nothing else (R128, R130). -/
theorem busWrite_of_check_error {s : State} {size : AccessSize} {addr : Word} {f : BusFault} (hl : s.fatal = none)
    (h : check s.cfg .write size addr = .error f) (v : Word) :
    busWrite size addr v s = .next { s with response := some (.fault f) } := by
  rw [busWrite, ifLive_live hl, h]
  rfl

/-- Settles O31: without an owner the first check of the pipeline fails. -/
theorem unownedAddressIsAccessFault : Obligations.UnownedAddressIsAccessFault := by
  intro s size addr v hl hUnowned
  have hOwner := owner_eq_none hUnowned
  exact ⟨busRead_of_check_error hl (check_unowned hOwner .read size),
    busWrite_of_check_error hl (check_unowned hOwner .write size) v⟩

/-- Settles O32: a check that passes has the owner's granularity and alignment, so this one fails. -/
theorem badAccessNeverReachesHandler : Obligations.BadAccessNeverReachesHandler := by
  intro s size addr v r hl hOwner hBad
  obtain ⟨f, hRead⟩ := check_error_of_bad hOwner hBad .read
  obtain ⟨g, hWrite⟩ := check_error_of_bad hOwner hBad .write
  exact ⟨⟨f, busRead_of_check_error hl hRead⟩, ⟨g, busWrite_of_check_error hl hWrite v⟩⟩

/-! ## The addresses of a DOE -/

/-- A word is the only size of 4 bytes (R83). -/
theorem sizeBytes_eq_four_iff {size : AccessSize} : sizeBytes size = some 4 ↔ size = .word := by
  cases size <;> decide

/-- Every DOE of a well-formed configuration has an aligned base and its two regions in the table (R53, R66, R224). -/
theorem doeRegionsAt_subset_regionTable {n : Nat} {cfg : Config} (hw : cfg.wf n = true) {b : Word}
    (hb : b ∈ cfg.doeBase :: cfg.furtherBases) :
    b.toNat % 4 = 0 ∧ ∃ iv control, ∀ r ∈ doeRegionsAt b iv control, r ∈ regionTable cfg := by
  rcases List.mem_cons.mp hb with rfl | hb
  · exact ⟨(wf_doeBase hw).1, .doeIv, .doeControl, fun _ hr => List.mem_append_left _ hr⟩
  · obtain ⟨j, hj⟩ := List.mem_iff_getElem?.mp hb
    exact ⟨(wf_furtherBase hw hj).1, .furtherIv j, .furtherControl j, fun _ hr => further_mem_regionTable hj hr⟩

/-- The 0x14 bytes from a DOE's base on are those of its two regions (R53). -/
theorem exists_doeRegion_owns {b : Word} (iv control : Handler) {a : Nat} (h1 : b.toNat ≤ a) (h2 : a < b.toNat + 0x14) :
    ∃ r ∈ doeRegionsAt b iv control, owns r a = true := by
  by_cases hIv : a < b.toNat + 0x10
  · exact ⟨⟨b.toNat, 0x10, 4, iv⟩, by simp [doeRegionsAt], by simp [owns, h1, hIv]⟩
  · refine ⟨⟨b.toNat + 0x10, 4, 4, control⟩, by simp [doeRegionsAt], ?_⟩
    simp only [owns, Bool.and_eq_true, decide_eq_true_eq]
    omega

/-- A DOE's regions have word granularity and a length that is a whole number of words (R53, R58). -/
theorem doeRegionsAt_words {b : Word} {iv control : Handler} {r : Region} (h : r ∈ doeRegionsAt b iv control)
    (hb : b.toNat % 4 = 0) : r.gran = 4 ∧ (r.base + r.len) % 4 = 0 := by
  simp only [doeRegionsAt, List.mem_cons, List.not_mem_nil, or_false] at h
  obtain rfl | rfl := h
  · exact ⟨rfl, by simp only; omega⟩
  · exact ⟨rfl, by simp only; omega⟩

/-- The owner of a DOE's address: a region of words that ends on a word boundary (R53, R58). -/
theorem owner_doe {n : Nat} {cfg : Config} (hw : cfg.wf n = true) {addr b : Word}
    (hb : b ∈ cfg.doeBase :: cfg.furtherBases) (h1 : b.toNat ≤ addr.toNat) (h2 : addr.toNat < b.toNat + 0x14) :
    ∃ r, owner cfg addr = some r ∧ r.gran = 4 ∧ (r.base + r.len) % 4 = 0 ∧ addr.toNat < r.base + r.len := by
  obtain ⟨hAligned, iv, control, hTable⟩ := doeRegionsAt_subset_regionTable hw hb
  obtain ⟨r, hr, ho⟩ := exists_doeRegion_owns iv control h1 h2
  obtain ⟨hGran, hWords⟩ := doeRegionsAt_words hr hAligned
  have hEnd : addr.toNat < r.base + r.len := by
    simp only [owns, Bool.and_eq_true, decide_eq_true_eq] at ho
    exact ho.2
  exact ⟨r, owner_of_owns hw (hTable r hr) ho, hGran, hWords, hEnd⟩

/-- Settles O34: an aligned word below a DOE region's end stays below it, since the region ends on a word boundary. -/
theorem doeAccessNeedsAlignedWord : Obligations.DoeAccessNeedsAlignedWord := by
  refine ⟨fun n cfg op size addr b hw hb h1 h2 => ?_, fun cfg op size addr r h => ?_⟩
  · obtain ⟨q, hOwner, hGran, hWords, hEnd⟩ := owner_doe hw hb h1 h2
    constructor
    · rintro ⟨r, h⟩
      obtain ⟨hr, hSize, hAligned, -⟩ := check_ok h
      obtain rfl : q = r := Option.some.inj (hOwner.symm.trans hr)
      rw [hGran] at hSize hAligned
      exact ⟨sizeBytes_eq_four_iff.mp hSize, hAligned⟩
    · rintro ⟨rfl, hAligned⟩
      refine ⟨q, check_eq_ok_iff.mpr ⟨hOwner, ?_, ?_, ?_⟩⟩ <;> rw [hGran]
      · rfl
      · exact hAligned
      · omega
  · obtain ⟨-, hSize, hAligned, -⟩ := check_ok h
    exact ⟨hSize, hAligned⟩

end Sys2Proof.Machine
end

section
/-! PROOFS. The clock and the timer: the one-shot slot (R103 to R105), what an accepted command leaves in it (R174), and the
polls that find it not due or empty (R107). -/

namespace Sys2Proof.Machine

/-! ## The timer slot -/

/-- From its time on an action has fired, and the slot is empty (R104). -/
theorem fired_due {now t : Nat} (h : t ≤ now) : fired now (some t) = (true, none) := if_pos h

/-- Before its time an action has not fired, and the slot is left (R104). -/
theorem fired_early {now t : Nat} (h : now < t) : fired now (some t) = (false, some t) := if_neg (Nat.not_le.mpr h)

/-- An empty slot has not fired (R104). -/
theorem fired_empty (now : Nat) : fired now none = (false, none) := rfl

/-- A slot has not fired exactly when the time of every action in it is still to come (R104). -/
theorem fired_eq_false_iff {now : Nat} {slot : Option Nat} :
    (fired now slot).1 = false ↔ ∀ t, slot = some t → now < t := by
  cases slot with
  | none => simp [fired_empty]
  | some t =>
    rcases Nat.lt_or_ge now t with h | h
    · simp [fired_early h, h]
    · simp [fired_due h, h]

/-- Settles O26: the two sides of the comparison, and the empty slot. -/
theorem firedOnceFromItsTimeOn : Obligations.FiredOnceFromItsTimeOn :=
  ⟨fun _ _ => fired_due, fun _ _ => fired_early, fired_empty⟩

/-! ## The accept -/

/-- A WRITE.CONTROL that answers a next state came from a live machine, and it ran the DOE's handler (R91, R130, R174). -/
theorem exec_writeControl_next {s t : State} {v : Word} (hw : s.cfg.wf s.peripherals.length = true)
    (h : exec (.writeControl v) s = .next t) : s.fatal = none ∧ t = (doeWriteControl s v).respond .done := by
  obtain ⟨hl, ⟨f, hCheck, -⟩ | ⟨r, hCheck, rfl⟩⟩ := busWrite_next h
  · rw [check_control hw] at hCheck
    cases hCheck
  · rw [check_control hw] at hCheck
    cases hCheck
    exact ⟨hl, rfl⟩

/-- The state an accepted command leaves: the word without FLOW_DONE, and the fire DOE_LATENCY ahead (R174). -/
theorem exec_writeControl_accept {s t : State} {v : Word} (hw : s.cfg.wf s.peripherals.length = true)
    (hv : v.extractLsb' 0 2 ≠ 0) (h : exec (.writeControl v) s = .next t) :
    t = { s with control := v &&& 0xFFFFFFDF, pending := schedule s.now doeLatency, response := some .done } := by
  obtain ⟨-, rfl⟩ := exec_writeControl_next hw h
  rw [doeWriteControl_eq, if_neg hv]
  rfl

/-- Settles O25: an action scheduled 0 ahead is due at once, and the accept's slot is read off the state it leaves. -/
theorem scheduleGivesNowPlusN : Obligations.ScheduleGivesNowPlusN := by
  refine ⟨fun _ _ => rfl, fun _ _ h => fired_due h, ?_⟩
  intro s t v hw hv h
  rw [exec_writeControl_accept hw hv h]
  rfl

/-- Settles O28: the second accept schedules from its own time and does not read the slot the first one filled. -/
theorem secondCommandReplacesFirst : Obligations.SecondCommandReplacesFirst := by
  intro s t u v w n hw hv hw' hFirst hSecond
  obtain rfl := exec_writeControl_accept hw hv hFirst
  -- `by exact` waits until hSecond has fixed the state: its configuration is the first one's.
  rw [exec_writeControl_accept (by exact hw) hw' hSecond]
  rfl

/-! ## The poll of a slot that is not due, or empty -/

/-- Delivering a plaintext, or failing to, leaves the timer slot alone (R179, R180, R186). -/
@[simp] theorem deliver_pending (s : State) (dest : Nat) (slot : Option KeySlot) :
    (deliver s dest slot).pending = s.pending := by
  rcases deliver_cases s dest slot with ⟨b, -, -, e⟩ | ⟨-, -, e⟩ | ⟨-, e⟩ <;> rw [e]

/-- Setting FLOW_DONE leaves the timer slot alone (R183). -/
@[simp] theorem completeFire_pending (s : State) : (completeFire s).pending = s.pending := by
  unfold completeFire
  split <;> rfl

/-- A fire leaves the timer slot alone, whatever the command: the poll has consumed the action before it (R177). -/
@[simp] theorem fire_pending (s : State) : (fire s).pending = s.pending := by
  unfold fire
  rw [completeFire_pending]
  split
  · exact deliver_pending ..
  · exact deliver_pending ..
  · exact State.clearSecretStore_pending s
  · rfl
  · rfl

/-- A poll with an empty slot changes nothing (R107). -/
theorem doePoll_empty {s : State} (h : s.pending = none) : doePoll s = s := doePoll_quiet (by simp [h])

/-- A poll that finds the action fired leaves the slot empty (R104, R177). -/
theorem doePoll_pending_of_fired {s : State} (h : (fired s.now s.pending).1 = true) : (doePoll s).pending = none := by
  rcases doePoll_cases s with ⟨-, hLater⟩ | ⟨t, -, -, e⟩
  · rw [fired_eq_false_iff.mpr hLater] at h
    cases h
  · rw [e, fire_pending]

/-- A second poll at the same time changes nothing: the first was quiet itself, or it emptied the slot (R107). -/
theorem doePoll_doePoll (s : State) : doePoll (doePoll s) = doePoll s := by
  cases h : (fired s.now s.pending).1 with
  | false =>
    have hQuiet : doePoll s = s := doePoll_quiet (fired_eq_false_iff.mp h)
    rw [hQuiet, hQuiet]
  | true => exact doePoll_empty (doePoll_pending_of_fired h)

/-- Settles O27: a fire empties the slot, and a poll of an empty slot changes nothing at any time. -/
theorem pollIsIdempotent : Obligations.PollIsIdempotent :=
  ⟨fun _ h => doePoll_quiet (fired_eq_false_iff.mp h), doePoll_doePoll,
    fun _ _ h => doePoll_empty (doePoll_pending_of_fired h)⟩

end Sys2Proof.Machine
end

section
/-! PROOFS. The bus: READ and WRITE of a rejected access (R128), and what a successful WRITE changes (R127, R131). -/

namespace Sys2Proof.Machine

/-- Settles O30: both operations return the fault of their failed check. -/
theorem faultedAccessChangesNothing : Obligations.FaultedAccessChangesNothing := fun _ _ _ v hl =>
  ⟨fun _ h => busRead_of_check_error hl h, fun _ h => busWrite_of_check_error hl h v⟩

/-! ## What a successful WRITE changes -/

/-- A WRITE whose check passes runs the owner's handler at the offset inside its region (R127, R130). -/
theorem busWrite_of_check_ok {s : State} {size : AccessSize} {addr : Word} {r : Region} (hl : s.fatal = none)
    (h : check s.cfg .write size addr = .ok r) (v : Word) :
    busWrite size addr v s = .next ((writeHandler s r (addr.toNat - r.base) v).respond .done) := by
  rw [busWrite, ifLive_live hl, h]

/-- The number of the IV word at an offset inside the IV region (R24). -/
theorem ivIndex_toNat {off : Nat} (h : off < 0x10) : (ivIndex off).toNat = off / 4 := by
  rw [ivIndex, BitVec.toNat_ofNat]
  omega

/-- A word write at address `a` of an aligned IV region replaces the four bytes from `a` on and keeps the others (R56). -/
theorem setIvWord_ivIndex_getElem {base a : Nat} (hBase : base % 4 = 0) (hAligned : a % 4 = 0) (hLow : base ≤ a)
    (hHigh : a < base + 0x10) (o : ByteOrder) (iv : Bytes 16) (v : Word) (i : Nat) (hi : i < 16) :
    (setIvWord o iv (ivIndex (a - base)) v)[i] =
      if base + i < a ∨ a + 4 ≤ base + i then iv[i] else wordByte o v ⟨i % 4, Nat.mod_lt _ (by decide)⟩ := by
  have hWord : i / 4 = (ivIndex (a - base)).toNat ↔ ¬ (base + i < a ∨ a + 4 ≤ base + i) := by
    rw [ivIndex_toNat (by omega)]
    omega
  rw [setIvWord_getElem]
  by_cases hOther : base + i < a ∨ a + 4 ≤ base + i
  · rw [if_neg (fun h => hWord.mp h hOther), if_pos hOther]
  · rw [if_pos (hWord.mpr hOther), if_neg hOther]

/-- WRITE.IV of a further DOE changes that DOE's buffer only (R172, R224). -/
theorem atFurther_doeWriteIv {s : State} {j : Nat} {d : DoeUnit} (hd : s.further[j]? = some d) (k : BitVec 2) (v : Word) :
    atFurther j (fun t => doeWriteIv t k v) s =
      { s with further := s.further.set j { d with iv := setIvWord s.cfg.ivByteOrder d.iv k v } } := by
  rw [atFurther_some hd (t := doeWriteIv (s.withDoe d) k v) rfl]
  simp [doeWriteIv]

/-- WRITE.CONTROL changes CONTROL and the timer slot only (R131, R174). -/
theorem doeWriteControl_frame (s : State) (v : Word) : doeWriteControl s v =
    { s with control := (doeWriteControl s v).control, pending := (doeWriteControl s v).pending } := by
  rw [doeWriteControl_eq]
  split <;> rfl

/-- WRITE.CONTROL of a further DOE changes that DOE's CONTROL and timer slot only (R174, R224). -/
theorem atFurther_doeWriteControl {s : State} {j : Nat} {d : DoeUnit} (hd : s.further[j]? = some d) (v : Word) :
    atFurther j (fun t => doeWriteControl t v) s =
      { s with further := s.further.set j { d with
          control := (doeWriteControl (s.withDoe d) v).control
          pending := (doeWriteControl (s.withDoe d) v).pending } } := by
  rw [atFurther_some hd (doeWriteControl_frame (s.withDoe d) v)]
  rfl

/-- Settles O35, target by target: the owner of the address is a region of the table, whose handler writes its target only. -/
theorem successfulWriteChangesOnlyItsTarget : Obligations.SuccessfulWriteChangesOnlyItsTarget := by
  intro s size addr v r hl hw hCheck
  obtain ⟨hOwner, -, hAligned, -⟩ := check_ok hCheck
  obtain ⟨hTable, hOwns⟩ := owner_some hOwner
  simp only [owns, Bool.and_eq_true, decide_eq_true_eq] at hOwns
  obtain ⟨hLow, hHigh⟩ := hOwns
  refine ⟨_, busWrite_of_check_ok hl hCheck v, ?_⟩
  obtain rfl | rfl | ⟨j, b, hb, rfl | rfl⟩ | ⟨-, -, p, region, hHandler, -⟩ := mem_regionTable hw hTable
  · exact ⟨rfl, setIvWord_ivIndex_getElem (wf_doeBase hw).1 hAligned hLow hHigh _ _ _⟩
  · exact congrArg (State.respond · .done) (doeWriteControl_frame s v)
  · intro d hd
    refine ⟨b, _, hb, ?_, ?_, congrArg (State.respond · .done) (atFurther_doeWriteIv hd _ v),
      setIvWord_ivIndex_getElem (wf_furtherBase hw hb).1 hAligned hLow hHigh _ _ _⟩ <;> rfl
  · intro d hd
    refine ⟨_, ?_, congrArg (State.respond · .done) (atFurther_doeWriteControl hd v)⟩
    rfl
  · obtain ⟨base, len, gran, handler⟩ := r
    subst hHandler
    exact ⟨_, rfl⟩

end Sys2Proof.Machine
end

section
/-! PROOFS. The register file: FieldGet (R153), EnumGet and EnumSet (R155, R156), and Compose in any order (R157). -/

namespace Sys2Proof.Machine

variable {M : Type}

/-! ## One field -/

/-- FieldGet as a quotient and a remainder (R153). -/
theorem fieldGet_toNat (raw : Word) {f : RegField M} (hw : f.width ≤ 32) :
    (fieldGet raw f).toNat = raw.toNat / 2 ^ f.off % 2 ^ f.width := by
  have hMask : 2 ^ f.width - 1 < 2 ^ 32 := by
    have : 2 ^ f.width ≤ 2 ^ 32 := Nat.pow_le_pow_right (by decide) hw
    omega
  rw [fieldGet, BitVec.toNat_and, BitVec.toNat_ushiftRight, BitVec.toNat_ofNat, Nat.mod_eq_of_lt hMask,
    Nat.and_two_pow_sub_one_eq_mod, Nat.shiftRight_eq_div_pow]

/-- Words that agree on the field's bits have the same FieldGet (R153). -/
theorem fieldGet_congr {raw raw' : Word} {f : RegField M} (hw : f.width ≤ 32)
    (h : ∀ i, f.off ≤ i → i < f.off + f.width → raw.getLsbD i = raw'.getLsbD i) : fieldGet raw f = fieldGet raw' f := by
  apply BitVec.eq_of_getLsbD_eq
  intro i _
  rw [fieldGet_getLsbD _ _ hw, fieldGet_getLsbD _ _ hw]
  by_cases hi : i < f.width
  · rw [h (f.off + i) (by omega) (by omega)]
  · simp [hi]

/-- Settles O40. -/
theorem fieldGetReadsOnlyItsField : Obligations.FieldGetReadsOnlyItsField := fun _ _ raw _ hf =>
  ⟨fieldGet_toNat raw (by omega), fieldGet_congr (by omega)⟩

/-- A field's value moved to the field's place has its bit `i - off` at bit i (R154, R157). -/
theorem shiftedValue_getLsbD (v off : Nat) {i : Nat} (hi : i < 32) :
    (BitVec.ofNat 32 v <<< off).getLsbD i = (decide (off ≤ i) && v.testBit (i - off)) := by
  have hLow : i - off < 32 := by omega
  have hSide : (!decide (i < off)) = decide (off ≤ i) := by rw [← decide_not, decide_eq_decide, Nat.not_lt]
  rw [BitVec.getLsbD_shiftLeft, BitVec.getLsbD_ofNat, hSide]
  simp [hi, hLow]

/-- A value that fits the field has no bit outside the field's range (R154, R157). -/
theorem shiftedValue_getLsbD_outside {f : RegField M} {v i : Nat} (hv : v < 2 ^ f.width)
    (hOutside : ¬ (f.off ≤ i ∧ i < f.off + f.width)) : (BitVec.ofNat 32 v <<< f.off).getLsbD i = false := by
  by_cases hi : i < 32
  · rw [shiftedValue_getLsbD _ _ hi]
    by_cases hLow : f.off ≤ i
    · have hHigh : v < 2 ^ (i - f.off) := hv.trans_le (Nat.pow_le_pow_right (by decide) (by omega))
      simp [Nat.testBit_lt_two_pow hHigh]
    · simp [hLow]
  · exact BitVec.getLsbD_of_ge _ _ (by omega)

/-- FieldSet of a value that fits (R154). -/
theorem fieldSet_of_lt (raw : Word) {f : RegField M} {v : Nat} (hv : v < 2 ^ f.width) :
    fieldSet raw f v = some ((raw &&& ~~~fieldMask f) ||| (BitVec.ofNat 32 v <<< f.off)) :=
  if_neg (Nat.not_le.mpr hv)

/-- After FieldSet the field reads as the value that was set (R154). -/
theorem fieldGet_of_fieldSet {raw w : Word} {f : RegField M} {v : Nat} (hf : f.off + f.width ≤ 32) (hv : v < 2 ^ f.width)
    (h : fieldSet raw f v = some w) : (fieldGet w f).toNat = v := by
  rw [fieldSet_of_lt raw hv] at h
  obtain rfl := Option.some.inj h
  have hv32 : v < 2 ^ 32 := hv.trans_le (Nat.pow_le_pow_right (by decide) (by omega))
  suffices hGet : fieldGet _ f = BitVec.ofNat 32 v by rw [hGet, BitVec.toNat_ofNat, Nat.mod_eq_of_lt hv32]
  apply BitVec.eq_of_getLsbD_eq
  intro i hi
  rw [fieldGet_getLsbD _ _ (by omega), BitVec.getLsbD_ofNat]
  by_cases hIn : i < f.width
  · rw [BitVec.getLsbD_or, BitVec.getLsbD_and, BitVec.getLsbD_not, fieldMask_getLsbD f hf,
      shiftedValue_getLsbD _ _ (by omega)]
    simp [hIn, hi]
  · have hHigh : v < 2 ^ i := hv.trans_le (Nat.pow_le_pow_right (by decide) (by omega))
    simp [hIn, Nat.testBit_lt_two_pow hHigh]

/-! ## Enumerated fields -/

/-- A well-formed field lies inside the word (R151). -/
theorem wf_range [DecidableEq M] {f : RegField M} (h : f.wf = true) : f.off + f.width ≤ 32 := by
  simp only [RegField.wf, Bool.and_eq_true, decide_eq_true_eq] at h
  obtain ⟨⟨-, hRange⟩, -⟩ := h
  exact hRange

/-- The members of a well-formed field have distinct names and distinct patterns, each below `2^w` (R151). -/
theorem wf_legal [DecidableEq M] {f : RegField M} {l : List (M × Nat)} (h : f.wf = true) (hl : f.legal = some l) :
    (l.map (·.1)).Nodup ∧ (l.map (·.2)).Nodup ∧ ∀ p ∈ l, p.2 < 2 ^ f.width := by
  simp only [RegField.wf, hl, Bool.and_eq_true, decide_eq_true_eq, List.all_eq_true] at h
  obtain ⟨-, ⟨hNames, hPatterns⟩, hFit⟩ := h
  exact ⟨hNames, hPatterns, hFit⟩

/-- A search by a key that is distinct for every element finds the element with that key. -/
theorem find?_eq_some_of_nodup_map {α κ : Type} {key : α → κ} {P : α → Bool} {l : List α} {a : α}
    (hKeys : (l.map key).Nodup) (ha : a ∈ l) (hP : P a = true) (hKey : ∀ b, P b = true → key b = key a) :
    l.find? P = some a := by
  obtain ⟨b, hb⟩ := Option.isSome_iff_exists.mp (List.find?_isSome.mpr ⟨a, ha, hP⟩)
  rw [hb, List.inj_on_of_nodup_map hKeys (List.mem_of_find?_eq_some hb) ha (hKey b (List.find?_some hb))]

/-- When EnumGet answers a member: the field holds that member's pattern (R155). -/
theorem enumGet_eq_some_iff [DecidableEq M] {f : RegField M} {raw : Word} {m : M} (h : f.wf = true) :
    enumGet raw f = some m ↔ ∃ l, f.legal = some l ∧ (m, (fieldGet raw f).toNat) ∈ l := by
  cases hl : f.legal with
  | none => simp [enumGet, hl]
  | some l =>
    obtain ⟨-, hPatterns, -⟩ := wf_legal h hl
    simp only [enumGet, hl, Option.some.injEq, exists_eq_left', Option.map_eq_some_iff]
    constructor
    · rintro ⟨⟨m', p⟩, hFind, rfl⟩
      obtain rfl : p = (fieldGet raw f).toNat := by simpa using List.find?_some hFind
      exact List.mem_of_find?_eq_some hFind
    · intro hMem
      exact ⟨_, find?_eq_some_of_nodup_map hPatterns hMem (by simp) (by simp), rfl⟩

/-- Settles O42: patterns are distinct, so the member found is the only one, and each of CMD's four patterns is a member. -/
theorem enumGetNeverInventsMember : Obligations.EnumGetNeverInventsMember := by
  refine ⟨fun _ _ _ _ _ => enumGet_eq_some_iff, fun raw hNone => ?_⟩
  have hCmd : enumGet raw cmdField = some _ := controlCmd_eq raw
  rw [hNone] at hCmd
  cases hCmd

/-- EnumSet of a member is FieldSet of its pattern (R156). -/
theorem enumSet_of_mem [DecidableEq M] {f : RegField M} {l : List (M × Nat)} {m : M} {p : Nat} (raw : Word)
    (h : f.wf = true) (hl : f.legal = some l) (hMem : (m, p) ∈ l) : enumSet raw f m = fieldSet raw f p := by
  obtain ⟨hNames, -, -⟩ := wf_legal h hl
  have hFind : l.find? (fun q => decide (q.1 = m)) = some (m, p) :=
    find?_eq_some_of_nodup_map hNames hMem (by simp) (by simp)
  simp [enumSet, hl, hFind]

/-- EnumSet of a value that is no member is rejected (R156). -/
theorem enumSet_of_not_mem [DecidableEq M] {f : RegField M} {m : M} (raw : Word)
    (h : ∀ l p, f.legal = some l → (m, p) ∉ l) : enumSet raw f m = none := by
  cases hl : f.legal with
  | none => simp [enumSet, hl]
  | some l =>
    have hFind : l.find? (fun q => decide (q.1 = m)) = none := by
      refine List.find?_eq_none.mpr ?_
      rintro ⟨m', p⟩ hq hName
      obtain rfl : m' = m := of_decide_eq_true hName
      exact h l p hl hq
    simp [enumSet, hl, hFind]

/-- Settles O43: names are distinct, so the pattern found is the member's own, and it fits the field. -/
theorem enumSetWritesMembersOnly : Obligations.EnumSetWritesMembersOnly := by
  intro M _ f raw m h
  refine ⟨fun l p hl hMem => ?_, enumSet_of_not_mem raw⟩
  obtain ⟨-, -, hFit⟩ := wf_legal h hl
  have hSet := fieldSet_of_lt raw (hFit _ hMem)
  have hEnum := enumSet_of_mem raw h hl hMem
  refine ⟨hEnum, _, hEnum.trans hSet, (enumGet_eq_some_iff h).mpr ⟨l, hl, ?_⟩⟩
  rw [fieldGet_of_fieldSet (wf_range h) (hFit _ hMem) hSet]
  exact hMem

/-! ## Compose -/

/-- A layout is disjoint iff no two of its fields overlap (R151). -/
theorem disjoint_iff_pairwise : ∀ {fs : List (RegField M)},
    Layout.disjoint fs = true ↔ fs.Pairwise fun f g => f.overlap g = false
  | [] => by simp [Layout.disjoint]
  | f :: fs => by
    rw [List.pairwise_cons, ← disjoint_iff_pairwise]
    simp [Layout.disjoint]

/-- Two fields share a bit in either order (R151). -/
theorem overlap_fields_comm (f g : RegField M) : f.overlap g = g.overlap f := Bool.and_comm ..

/-- What Compose accepts: values that fit their fields, and fields that share no bit (R157). -/
def Composable (ps : List (RegField M × Nat)) : Prop :=
  (∀ p ∈ ps, p.2 < 2 ^ p.1.width) ∧ (ps.map (·.1)).Pairwise fun f g => f.overlap g = false

/-- Compose accepts a list in every order or in none (R157). -/
theorem composable_congr {ps qs : List (RegField M × Nat)} (h : ps.Perm qs) : Composable ps ↔ Composable qs :=
  and_congr (forall_congr' fun _ => by rw [h.mem_iff])
    ((h.map _).pairwise_iff fun hfg => (overlap_fields_comm ..).trans hfg)

/-- Compose of a list it accepts. -/
theorem compose_of_composable {ps : List (RegField M × Nat)} (h : Composable ps) : compose ps = some (composeBits ps) := by
  obtain ⟨hFit, hApart⟩ := h
  refine if_pos ?_
  rw [disjoint_iff_pairwise.mpr hApart, Bool.and_true]
  simpa using hFit

/-- Compose rejects every other list (R157). -/
theorem compose_eq_none_iff {ps : List (RegField M × Nat)} : compose ps = none ↔ ¬ Composable ps := by
  simp [compose, Composable, disjoint_iff_pairwise]

/-- The composed word is the OR of the shifted values (R157). -/
theorem composeBits_eq_foldr (ps : List (RegField M × Nat)) :
    composeBits ps = (ps.map fun p => BitVec.ofNat 32 p.2 <<< p.1.off).foldr (· ||| ·) 0 := by
  induction ps with
  | nil => rfl
  | cons p ps ih => rw [composeBits, ih]; rfl

/-- The composed word does not depend on the order of the list (R157). -/
theorem composeBits_perm {ps qs : List (RegField M × Nat)} (h : ps.Perm qs) : composeBits ps = composeBits qs := by
  rw [composeBits_eq_foldr, composeBits_eq_foldr]
  exact (h.map _).foldr_op_eq

/-- A bit of no listed field is 0 in the composed word (R157). -/
theorem composeBits_getLsbD_outside {ps : List (RegField M × Nat)} {i : Nat} (hFit : ∀ p ∈ ps, p.2 < 2 ^ p.1.width)
    (hOutside : ∀ p ∈ ps, ¬ (p.1.off ≤ i ∧ i < p.1.off + p.1.width)) : (composeBits ps).getLsbD i = false := by
  induction ps with
  | nil => exact BitVec.getLsbD_zero
  | cons p ps ih =>
    rw [List.forall_mem_cons] at hFit hOutside
    rw [composeBits, BitVec.getLsbD_or, shiftedValue_getLsbD_outside hFit.1 hOutside.1, ih hFit.2 hOutside.2,
      Bool.or_false]

/-- Compose of two orders of one list is the same (R157). -/
theorem compose_perm {ps qs : List (RegField M × Nat)} (h : ps.Perm qs) : compose ps = compose qs := by
  by_cases hps : Composable ps
  · rw [compose_of_composable hps, compose_of_composable ((composable_congr h).mp hps), composeBits_perm h]
  · rw [compose_eq_none_iff.mpr hps, compose_eq_none_iff.mpr (mt (composable_congr h).mpr hps)]

/-- What a Compose that is not rejected answers, and of which list (R157). -/
theorem compose_eq_some {ps : List (RegField M × Nat)} {w : Word} (h : compose ps = some w) :
    Composable ps ∧ w = composeBits ps := by
  by_cases hps : Composable ps
  · rw [compose_of_composable hps] at h
    exact ⟨hps, (Option.some.inj h).symm⟩
  · rw [compose_eq_none_iff.mpr hps] at h
    cases h

/-- Settles O44: acceptance and the OR are each the same for every order of the list. -/
theorem composeOrderDoesNotMatter : Obligations.ComposeOrderDoesNotMatter := by
  intro M ps qs h
  refine ⟨compose_perm h, ?_, fun w hw => ?_⟩
  · rw [compose_eq_none_iff, Composable, not_and_or]
    simp only [not_forall, Nat.not_lt, exists_prop]
  · obtain ⟨⟨hFit, -⟩, rfl⟩ := compose_eq_some hw
    exact ⟨composeBits_eq_foldr ps, fun i => composeBits_getLsbD_outside hFit⟩

end Sys2Proof.Machine
end

section
/-! PROOFS. The DOE: what a fire and a decrypt leave (R183, R189), and the IV a decrypt uses (R184). -/

namespace Sys2Proof.Machine

/-! ## FLOW_DONE after a fire -/

/-- Bit i of a CONTROL word with FLOW_DONE set (R183). -/
theorem or_flowDone_getLsbD (w : Word) (i : Nat) : (w ||| 0x20).getLsbD i = (decide (i = 5) || w.getLsbD i) := by
  rw [show (0x20 : Word) = BitVec.twoPow 32 5 by decide, BitVec.getLsbD_or, BitVec.getLsbD_twoPow, Bool.or_comm]
  simp [eq_comm]

/-- A fire on a live machine either sets FLOW_DONE or goes fatal and leaves CONTROL (R183, R186). -/
theorem fire_control {s : State} (hl : s.fatal = none) :
    ((fire s).fatal = none ∧ (fire s).control = s.control ||| 0x20) ∨
    ((fire s).fatal ≠ none ∧ (fire s).control = s.control) := by
  rcases fire_cases hl with ⟨d, b, -, -, e⟩ | ⟨d, -, -, e⟩ | ⟨-, e⟩ | e | e <;> rw [e]
  · exact .inl ⟨hl, rfl⟩
  · exact .inr ⟨Option.some_ne_none _, rfl⟩
  · exact .inr ⟨Option.some_ne_none _, rfl⟩
  · exact .inl ⟨hl, rfl⟩
  · exact .inl ⟨hl, rfl⟩

/-- Settles O22: the poll that finds the action due is a fire, and emptying the slot leaves CONTROL. -/
theorem fireSetsFlowDoneUnlessFatal : Obligations.FireSetsFlowDoneUnlessFatal := by
  intro s t hl hPending hDue
  rw [doePoll_due hPending hDue]
  rcases fire_control (s := { s with pending := none }) hl with ⟨hLive, hControl⟩ | ⟨hFatal, hControl⟩
  · refine ⟨fun _ i => ?_, fun hFatal => absurd hLive hFatal⟩
    rw [hControl, or_flowDone_getLsbD]
  · exact ⟨fun hLive => absurd hLive hFatal, fun _ => hControl⟩

/-! ## What a decrypt writes -/

/-- Either decrypt, when it answers a next state, delivers some slot value to DEST and completes the fire (R179, R180). -/
theorem exec_decrypt_next {s t : State} {d : BitVec 3} {f : Bool} {r : BitVec 26}
    (h : exec (.deobfuscateUds d f r) s = .next t ∨ exec (.deobfuscateFe d f r) s = .next t) :
    s.fatal = none ∧ ∃ slot, t = completeFire (deliver s d.toNat slot) := by
  rcases h with h | h
  · obtain ⟨hl, h⟩ := ifLive_next h
    cases h
    exact ⟨hl, udsSlot s, rfl⟩
  · obtain ⟨hl, h⟩ := ifLive_next h
    cases h
    exact ⟨hl, feSlot s, rfl⟩

/-- All that delivering a plaintext and completing the fire can do: slot `dest` and FLOW_DONE, or the fatal mark only
(R179, R183, R186). -/
theorem completeFire_deliver_cases {s : State} (hl : s.fatal = none) (dest : Nat) (slot : Option KeySlot) :
    (∃ b, dest < s.kv.length ∧ slot = some b ∧
      completeFire (deliver s dest slot) = { s with kv := s.kv.set dest b, control := s.control ||| 0x20 }) ∨
    (∃ c, completeFire (deliver s dest slot) = { s with fatal := some c }) := by
  rcases deliver_cases s dest slot with ⟨b, hDest, hSlot, e⟩ | ⟨-, -, e⟩ | ⟨-, e⟩ <;> rw [e]
  · exact .inl ⟨b, hDest, hSlot, by simp [completeFire, hl, setFlowDone_eq]⟩
  · exact .inr ⟨.cipherFail, rfl⟩
  · exact .inr ⟨.vaultWrite dest, rfl⟩

/-- Settles O21: a decrypt ends in one of the two states of `completeFire_deliver_cases`. -/
theorem decryptFireWritesOneSlot : Obligations.DecryptFireWritesOneSlot := by
  intro s t d f r h
  obtain ⟨hl, slot, rfl⟩ := exec_decrypt_next h
  rcases completeFire_deliver_cases hl d.toNat slot with ⟨b, hDest, -, e⟩ | ⟨c, e⟩ <;> rw [e]
  · exact ⟨rfl, rfl, rfl, fun j hj => List.getElem?_set_ne (Ne.symm hj), fun _ => ⟨hDest, b, rfl⟩,
      fun hFatal => absurd hl hFatal⟩
  · exact ⟨rfl, rfl, rfl, fun _ _ => rfl, nofun, fun _ => rfl⟩

/-! ## The plaintext a fire delivers -/

/-- Completing the fire leaves the vault (R183). -/
@[simp] theorem completeFire_kv (s : State) : (completeFire s).kv = s.kv := by
  unfold completeFire
  split <;> rfl

/-- A plaintext delivered to a slot of the vault is what the slot then holds (R179, R180, R192). -/
theorem deliver_kv_getElem? {s : State} {dest : Nat} (h : dest < s.kv.length) (b : KeySlot) :
    (deliver s dest (some b)).kv[dest]? = some b := by
  rw [deliver, State.kvSlots_eq, if_pos h, State.setSlot_kv, List.getElem?_set_self h]

/-- CMD of an encoded word decodes to the command (R87, R90). -/
@[simp] theorem controlCmd_encodeControl (c : Cmd) (d : BitVec 3) (f : Bool) (r : BitVec 26) :
    controlCmd (encodeControl c d f r) = some c := by
  rw [controlCmd_eq, encodeControl_cmd, cmdOfBits_cmdBits]

/-- DEST of an encoded word decodes to the index (R88, R90). -/
@[simp] theorem controlDest_encodeControl (c : Cmd) (d : BitVec 3) (f : Bool) (r : BitVec 26) :
    controlDest (encodeControl c d f r) = d.toNat := by
  rw [controlDest_eq, encodeControl_dest]

/-- The fire of DEOBFUSCATE_UDS leaves in DEST the padded plaintext of the IV it finds (R178, R179, R184). -/
theorem fire_uds_readKey {s : State} {d : BitVec 3} {f : Bool} {r : BitVec 26}
    (hControl : s.control = encodeControl .deobfuscateUds d f r) (hDest : d.toNat < s.kv.length)
    (hCipher : s.cfg.cipherFailures = []) :
    (fire s).readKey d.toNat = some (Config.aes256CbcPlaintext 3 s.doekey s.iv s.uds ++ zeros 16) := by
  have hSlot : udsSlot s = some (Config.aes256CbcPlaintext 3 s.doekey s.iv s.uds ++ zeros 16) :=
    congrArg (Option.map (· ++ zeros 16)) (decrypt_some (by simp [hCipher]))
  rw [fire, hControl, controlCmd_encodeControl, State.readKey_eq, completeFire_kv, controlDest_encodeControl, doUds, hSlot,
    deliver_kv_getElem? hDest]

/-- The fire of DEOBFUSCATE_FE leaves in DEST the plaintext of the IV it finds (R178, R180, R184). -/
theorem fire_fe_readKey {s : State} {d : BitVec 3} {f : Bool} {r : BitVec 26}
    (hControl : s.control = encodeControl .deobfuscateFe d f r) (hDest : d.toNat < s.kv.length)
    (hCipher : s.cfg.cipherFailures = []) :
    (fire s).readKey d.toNat = some (Config.aes256CbcPlaintext 4 s.doekey s.iv s.fe) := by
  have hSlot : feSlot s = some (Config.aes256CbcPlaintext 4 s.doekey s.iv s.fe) := decrypt_some (by simp [hCipher])
  rw [fire, hControl, controlCmd_encodeControl, State.readKey_eq, completeFire_kv, controlDest_encodeControl, doFe, hSlot,
    deliver_kv_getElem? hDest]

/-! ## From the accept to the fire -/

/-- A WRITE.IV that answers a next state came from a live machine, and it ran the DOE's handler (R91, R130, R172). -/
theorem exec_writeIv_next {s t : State} {k : BitVec 2} {w : Word} (hw : s.cfg.wf s.peripherals.length = true)
    (h : exec (.writeIv k w) s = .next t) : s.fatal = none ∧ t = (doeWriteIv s k w).respond .done := by
  obtain ⟨hl, ⟨f, hCheck, -⟩ | ⟨r, hCheck, rfl⟩⟩ := busWrite_next h
  · rw [check_iv hw] at hCheck
    cases hCheck
  · rw [check_iv hw] at hCheck
    cases hCheck
    refine ⟨hl, ?_⟩
    rw [writeHandler, ivIndex_addr hw]

/-- An ADVANCE that reaches the fire time, with the DOE alone in POLL_ORDER, ends with the fire (R101, R177). -/
theorem advanced_due {s : State} {n t : Nat} (hOrder : s.cfg.pollOrder = [.doe]) (hPending : s.pending = some t)
    (hDue : t ≤ s.now + n) : advanced n s = fire { s with now := s.now + n, pending := none } := by
  rw [advanced, hOrder, pollAll_doe]
  exact doePoll_due (s := { s with now := s.now + n }) hPending hDue

/-- The accept clears FLOW_DONE of an encoded word and keeps its other fields (R90, R174). -/
theorem encodeControl_and_not_flowDone (c : Cmd) (d : BitVec 3) (f : Bool) (r : BitVec 26) :
    encodeControl c d f r &&& 0xFFFFFFDF = encodeControl c d false r := by
  apply BitVec.eq_of_getLsbD_eq
  intro i hi
  have hMask : (0xFFFFFFDF : Word).getLsbD i = decide (i ≠ 5) := by
    revert i
    decide
  rw [BitVec.getLsbD_and, encodeControl_getLsbD, encodeControl_getLsbD, hMask]
  rcases Nat.lt_trichotomy i 5 with h5 | rfl | h5
  · simp [h5, show i ≠ 5 by omega]
  · simp
  · simp [show i ≠ 5 by omega, show ¬ i < 6 by omega]

/-- The state after `s` accepted the CONTROL word `v` and the driver then wrote an IV word (R172, R174). -/
def afterAcceptAndIvWrite (s : State) (v : Word) (k : BitVec 2) (w : Word) : State :=
  { s with
    iv := setIvWord s.cfg.ivByteOrder s.iv k w
    control := v &&& 0xFFFFFFDF
    pending := some (s.now + doeLatency)
    response := some .done }

/-- An accept and an IV write that both answer a next state leave `afterAcceptAndIvWrite`, on a live machine (R172, R174). -/
theorem exec_accept_writeIv_next {s t u : State} {v w : Word} {k : BitVec 2}
    (hw : s.cfg.wf s.peripherals.length = true) (hv : v.extractLsb' 0 2 ≠ 0)
    (hAccept : exec (.writeControl v) s = .next t) (hIv : exec (.writeIv k w) t = .next u) :
    s.fatal = none ∧ u = afterAcceptAndIvWrite s v k w := by
  obtain rfl := exec_writeControl_accept hw hv hAccept
  -- `by exact` waits until hIv has fixed the state: its configuration is that of s.
  exact exec_writeIv_next (by exact hw) hIv

/-- The accept takes no copy of the IV: after an IV write the ADVANCE fires on the buffer as written (R184). -/
theorem advance_after_accept_writeIv {s t u : State} {v w : Word} {k : BitVec 2}
    (hw : s.cfg.wf s.peripherals.length = true) (hOrder : s.cfg.pollOrder = [.doe]) (hv : v.extractLsb' 0 2 ≠ 0)
    (hAccept : exec (.writeControl v) s = .next t) (hIv : exec (.writeIv k w) t = .next u) :
    ∃ x, exec (.advance doeLatency) u = .next x ∧ ∀ j, x.readKey j =
      (fire { afterAcceptAndIvWrite s v k w with now := s.now + doeLatency, pending := none }).readKey j := by
  obtain ⟨hl, rfl⟩ := exec_accept_writeIv_next hw hv hAccept hIv
  have hFire := advanced_due (s := afterAcceptAndIvWrite s v k w) (n := doeLatency) hOrder rfl (Nat.le_refl _)
  refine ⟨_, exec_advance_live (by exact hl) doeLatency, fun j => ?_⟩
  rw [hFire]
  rfl

/-- Settles O49: each command's fire delivers the plaintext of the IV that `afterAcceptAndIvWrite` holds. -/
theorem decryptUsesIvOfFireTime : Obligations.DecryptUsesIvOfFireTime := by
  rintro s t u d k w hw - ⟨-, hOrder, hCipher⟩ hDest
  constructor
  · intro hAccept hIv
    obtain ⟨x, hx, hKey⟩ := advance_after_accept_writeIv hw hOrder (by rw [encodeControl_cmd]; decide) hAccept hIv
    exact ⟨x, hx, (hKey _).trans (fire_uds_readKey (encodeControl_and_not_flowDone ..) hDest hCipher)⟩
  · intro hAccept hIv
    obtain ⟨x, hx, hKey⟩ := advance_after_accept_writeIv hw hOrder (by rw [encodeControl_cmd]; decide) hAccept hIv
    exact ⟨x, hx, (hKey _).trans (fire_fe_readKey (encodeControl_and_not_flowDone ..) hDest hCipher)⟩

end Sys2Proof.Machine
end

section
/-! PROOFS. Encoding: the decoder and the encoder are inverse to each other, for transactions and for CONTROL words (R81 to
R94), and no two rows of the opcode map overlap (R91). -/

namespace Sys2Proof

/-! ## CONTROL words -/

/-- The CTRL-format instruction of a command with the other fields of its word (R86). -/
def controlInstr (c : Cmd) (d : BitVec 3) (f : Bool) (r : BitVec 26) : Instr :=
  match c with
  | .idle => .idle d f r
  | .deobfuscateUds => .deobfuscateUds d f r
  | .deobfuscateFe => .deobfuscateFe d f r
  | .clearSecrets => .clearSecrets d f r

/-- A CONTROL word decodes to the instruction of its four fields (R86 to R89). -/
theorem decodeControl_eq (w : Word) : decodeControl w =
    controlInstr (cmdOfBits (w.extractLsb' 0 2)) (w.extractLsb' 2 3) (w.getLsbD 5) (w.extractLsb' 6 26) := by
  unfold decodeControl controlInstr
  cases cmdOfBits (w.extractLsb' 0 2) <;> rfl

/-- A CTRL-format instruction is encoded by the command encoder (R90). -/
theorem encode_controlInstr (c : Cmd) (d : BitVec 3) (f : Bool) (r : BitVec 26) :
    encode (controlInstr c d f r) = .control (encodeControl c d f r) := by
  cases c <;> rfl

/-- Bits 31:6 read back (R90). -/
@[simp] theorem encodeControl_rsv (c : Cmd) (d : BitVec 3) (f : Bool) (r : BitVec 26) :
    (encodeControl c d f r).extractLsb' 6 26 = r := by
  apply BitVec.eq_of_getLsbD_eq
  intro i hi
  rw [BitVec.getLsbD_extractLsb', encodeControl_getLsbD, if_neg (by omega), if_neg (by omega), if_neg (by omega),
    Nat.add_sub_cancel_left]
  simp [hi]

/-- An encoded CONTROL word decodes to its instruction (R86 to R90). -/
theorem decodeControl_encodeControl (c : Cmd) (d : BitVec 3) (f : Bool) (r : BitVec 26) :
    decodeControl (encodeControl c d f r) = controlInstr c d f r := by
  rw [decodeControl_eq, encodeControl_cmd, encodeControl_dest, encodeControl_flowDone, encodeControl_rsv,
    cmdOfBits_cmdBits]

/-- A CONTROL word is the encoding of its four fields (R86, R90). -/
theorem encodeControl_fields (w : Word) :
    encodeControl (cmdOfBits (w.extractLsb' 0 2)) (w.extractLsb' 2 3) (w.getLsbD 5) (w.extractLsb' 6 26) = w := by
  apply BitVec.eq_of_getLsbD_eq
  intro i hi
  rw [encodeControl_getLsbD, cmdBits_cmdOfBits]
  simp only [BitVec.getLsbD_extractLsb']
  split
  · simp [*]
  · split
    · rw [show 2 + (i - 2) = i by omega]
      simp
      omega
    · split
      · rw [show i = 5 by omega]
      · rw [show 6 + (i - 6) = i by omega]
        simp
        omega

/-- A CONTROL word is an instruction's encoding exactly if it decodes to the instruction (R86 to R90). -/
theorem encode_eq_control_iff {i : Instr} {w : Word} : encode i = .control w ↔ decodeControl w = i := by
  constructor
  · intro h
    cases i with
    | idle d f r => cases h; exact decodeControl_encodeControl .idle d f r
    | deobfuscateUds d f r => cases h; exact decodeControl_encodeControl .deobfuscateUds d f r
    | deobfuscateFe d f r => cases h; exact decodeControl_encodeControl .deobfuscateFe d f r
    | clearSecrets d f r => cases h; exact decodeControl_encodeControl .clearSecrets d f r
    | _ => cases h
  · rintro rfl
    rw [decodeControl_eq, encode_controlInstr, encodeControl_fields]

/-! ## Rows of the opcode map -/

/-- A row found for a key is in the map, and the key matches it (R91). -/
theorem rowOf_eq_some {key : Key} {name : TRowName} (h : rowOf key = some name) :
    ∃ r ∈ tRows, r.name = name ∧ r.matchesKey key = true := by
  obtain ⟨r, hFind, hName⟩ := Option.map_eq_some_iff.mp h
  exact ⟨r, List.mem_of_find?_eq_some hFind, hName, by simpa using List.find?_some hFind⟩

/-- Two rows that one key matches ask for the same bits where both masks look (R91). -/
theorem matchesKey_agree {r q : TRow} {key : Key} (hr : r.matchesKey key = true) (hq : q.matchesKey key = true) :
    r.value &&& q.mask = q.value &&& r.mask := by
  rw [← beq_iff_eq.mp hr, ← beq_iff_eq.mp hq, BitVec.and_assoc, BitVec.and_assoc, BitVec.and_comm r.mask]

/-- Settles O3: every two rows of the map ask for different bits where both masks look. -/
theorem opcodeRowsDoNotOverlap : Obligations.OpcodeRowsDoNotOverlap := by
  have hApart : ∀ r ∈ tRows, ∀ q ∈ tRows, r.value &&& q.mask = q.value &&& r.mask → r = q := by decide
  exact fun key r hr q hq hrKey hqKey => hApart r hr q hq (matchesKey_agree hrKey hqKey)

/-- Settles O4: the decoder evaluated on each of the six words. -/
theorem sampleWordsDecode : Obligations.SampleWordsDecode :=
  ⟨by decide, by decide, by decide, by decide, by decide, by decide⟩

/-! ## Operations and their requests -/

/-- The size codes and their decoding are inverse to each other (R83). -/
@[simp] theorem sizeOfCode_sizeCode (size : AccessSize) : sizeOfCode (sizeCode size) = size := by
  cases size <;> decide

@[simp] theorem sizeCode_sizeOfCode : ∀ c : BitVec 2, sizeCode (sizeOfCode c) = c := by decide

/-- A request parses to an operation exactly if it is that operation's request (R81 to R85). -/
theorem parse_eq_operation_iff {key : Key} {payload : Payload} {op : Operation} :
    parse key payload = .operation op ↔ encodeOperation op = .transaction key payload := by
  constructor
  · intro h
    have hKey := encodeKey_fields key
    have hOps : ∀ c : BitVec 2, c ≠ 3 → c ≠ 2 → c ≠ 0 → c = 1 := by decide
    unfold parse at h
    split at h
    · cases h
    · split at h
      · split at h
        · rename_i hOp hFields
          split at h <;> cases h
          rw [encodeOperation, ← hOp, ← hFields.1, ← hFields.2, hKey]
        · cases h
      · split at h
        · rename_i hOp
          split at h <;> cases h
          rw [encodeOperation, ← hOp, sizeCode_sizeOfCode, hKey]
        · rename_i h3 h2 h0
          split at h <;> cases h
          rw [encodeOperation, ← hOps _ h3 h2 h0, sizeCode_sizeOfCode, hKey]
  · intro h
    cases op <;> cases h <;> simp [parse]

/-- The operation of a T-format row (R91, R171 to R174); a command is no operation. -/
def operationOf : Instr → Option Operation
  | .readIv k => some (.read .word (ivOffset k))
  | .readControl => some (.read .word controlOffset)
  | .writeIv k v => some (.write .word (ivOffset k) v)
  | .writeControl v => some (.write .word controlOffset v)
  | .advance n => some (.advance n)
  | _ => none

/-- A T-format row's encoding is its operation's request (R81, R91). -/
theorem encode_eq_transaction_iff {i : Instr} {key : Key} {payload : Payload} :
    encode i = .transaction key payload ↔
      ∃ op, operationOf i = some op ∧ encodeOperation op = .transaction key payload := by
  cases i <;> simp [encode, operationOf, encodeOperation, sizeCode]

/-- The word index of an IV offset (R24). -/
theorem ivOffset_index (k : BitVec 2) : (ivOffset k).extractLsb' 2 2 = k := by
  revert k
  decide

/-- The row that each T-format instruction's key matches (R91). -/
theorem rowOf_encodeKey :
    (∀ k, rowOf (encodeKey 0 2 (ivOffset k)) = some .readIv) ∧ rowOf (encodeKey 0 2 controlOffset) = some .readControl ∧
    (∀ k, rowOf (encodeKey 1 2 (ivOffset k)) = some .writeIv) ∧ rowOf (encodeKey 1 2 controlOffset) = some .writeControl ∧
    rowOf (encodeKey 2 0 0) = some .advance := by
  decide

/-- The request of a T-format row decodes to the row (R91). -/
theorem decode_of_operationOf {i : Instr} {op : Operation} {key : Key} {payload : Payload} (hi : operationOf i = some op)
    (h : encodeOperation op = .transaction key payload) : decode key payload = .row i := by
  obtain ⟨hReadIv, hReadControl, hWriteIv, hWriteControl, hAdvance⟩ := rowOf_encodeKey
  rw [decode, parse_eq_operation_iff.mpr h]
  cases i with
  | readIv k => cases hi; cases h; simp only [sizeCode, hReadIv, ivOffset_index]
  | readControl => cases hi; cases h; simp only [sizeCode, hReadControl]
  | writeIv k v => cases hi; cases h; simp only [sizeCode, hWriteIv, ivOffset_index]
  | writeControl v => cases hi; cases h; simp only [sizeCode, hWriteControl]
  | advance n => cases hi; cases h; simp only [hAdvance]
  | _ => cases hi

/-- Settles O1: a transaction is the request of a T-format row, a CONTROL word decodes by its four fields. -/
theorem encodeThenDecodeGivesInstruction : Obligations.EncodeThenDecodeGivesInstruction := by
  intro i
  cases h : encode i with
  | transaction key payload =>
    obtain ⟨op, hi, hRequest⟩ := encode_eq_transaction_iff.mp h
    exact decode_of_operationOf hi hRequest
  | control w => exact congrArg Decoded.row (encode_eq_control_iff.mp h)

/-! ## The key of a decoded instruction -/

/-- A row whose mask is all ones is matched by its value only (R91). -/
theorem key_eq_of_full_mask {key value : Key} (h : (key &&& 0xFFFFFFFFF == value) = true) : key = value := by
  rw [← beq_iff_eq.mp h]
  exact (BitVec.and_allOnes (x := key)).symm

/-- A key that agrees with a word's key but in bits 3:2 is the key of the IV word that those bits name (R91). -/
theorem key_eq_of_iv_mask {key : Key} (op : BitVec 2) (h : (key &&& 0xFFFFFFFF3 == encodeKey op 2 0) = true) :
    key = encodeKey op 2 (ivOffset ((keyOff key).extractLsb' 2 2)) := by
  have hMask : ∀ i < 36, (0xFFFFFFFF3 : Key).getLsbD i = !(decide (i = 2) || decide (i = 3)) := by decide
  apply BitVec.eq_of_getLsbD_eq
  intro i hi
  have hBit := congrArg (BitVec.getLsbD · i) (beq_iff_eq.mp h)
  simp only [BitVec.getLsbD_and, hMask i hi, encodeKey_getLsbD] at hBit
  rw [encodeKey_getLsbD]
  by_cases hIndex : i = 2 ∨ i = 3
  · obtain rfl | rfl := hIndex <;> simp [ivOffset, keyOff]
  · have hOff : (ivOffset ((keyOff key).extractLsb' 2 2)).getLsbD i = false := by
      simp [ivOffset]
      omega
    rw [hOff]
    simpa [not_or.mp hIndex] using hBit

/-- The keys that match each row of the opcode map (R91). -/
theorem key_of_rowOf {key : Key} {name : TRowName} (h : rowOf key = some name) :
    match name with
    | .readIv => key = encodeKey 0 2 (ivOffset ((keyOff key).extractLsb' 2 2))
    | .readControl => key = encodeKey 0 2 controlOffset
    | .writeIv => key = encodeKey 1 2 (ivOffset ((keyOff key).extractLsb' 2 2))
    | .writeControl => key = encodeKey 1 2 controlOffset
    | .advance => key = encodeKey 2 0 0 := by
  obtain ⟨r, hr, rfl, hKey⟩ := rowOf_eq_some h
  simp only [tRows, List.mem_cons, List.not_mem_nil, or_false] at hr
  obtain rfl | rfl | rfl | rfl | rfl := hr
  · exact key_eq_of_iv_mask 0 hKey
  · exact key_eq_of_full_mask hKey
  · exact key_eq_of_iv_mask 1 hKey
  · exact key_eq_of_full_mask hKey
  · exact key_eq_of_full_mask hKey

/-- Only a T-format row's own request decodes to the row (R91). -/
theorem encode_of_decode {key : Key} {payload : Payload} {i : Instr} (h : decode key payload = .row i) :
    encode i = .transaction key payload := by
  unfold decode at h
  split at h
  · cases h
  · rename_i op hParse
    have hRequest := parse_eq_operation_iff.mp hParse
    split at h <;> cases h <;> rename_i hRow <;> have hKey := key_of_rowOf hRow <;> cases hRequest
    · rw [keyOff_encodeKey] at hKey
      rw [hKey, encode]
    · rw [hKey, encode]
    · rw [keyOff_encodeKey] at hKey
      rw [hKey, encode]
    · rw [hKey, encode]
    · rfl

/-- Settles O2: a transaction by the key of its row, a CONTROL word by its four fields. -/
theorem decodedWordsReencode : Obligations.DecodedWordsReencode :=
  ⟨fun _ _ _ => encode_of_decode, fun _ => encode_eq_control_iff.mpr rfl⟩

end Sys2Proof
end

section
/-! PROOFS. The command encoder as a composition of the CONTROL register's fields (R90, R160). -/

namespace Sys2Proof.Machine

/-- FieldGet is the extraction of the field's bits (R153). -/
theorem fieldGet_toNat_extract {M : Type} (raw : Word) {f : RegField M} (hw : f.width ≤ 32) :
    (fieldGet raw f).toNat = (raw.extractLsb' f.off f.width).toNat := by
  rw [fieldGet_toNat raw hw, BitVec.extractLsb'_toNat, Nat.shiftRight_eq_div_pow]

/-- The fields of CONTROL share no bit, and what the encoder puts in them fits (R157, R160). -/
theorem composable_control (c : Cmd) (d : BitVec 3) (f : Bool) :
    Composable [(cmdField, (cmdBits c).toNat), (destField, d.toNat), (flowDoneField, f.toNat)] := by
  refine ⟨?_, disjoint_iff_pairwise.mp (show Layout.disjoint controlLayout = true by decide)⟩
  simp only [List.forall_mem_cons, List.not_mem_nil, false_imp_iff, implies_true, and_true]
  exact ⟨(cmdBits c).isLt, d.isLt, f.toNat_lt⟩

/-- The composed word of CONTROL's fields is the encoder's (R90, R160). -/
theorem composeBits_control (c : Cmd) (d : BitVec 3) (f : Bool) :
    composeBits [(cmdField, (cmdBits c).toNat), (destField, d.toNat), (flowDoneField, f.toNat)] =
      encodeControl c d f 0 := by
  have hFlag : BitVec.ofNat 32 f.toNat = (BitVec.ofBool f).setWidth 32 := by cases f <;> rfl
  have hRsv : (0 : BitVec 26).setWidth 32 <<< 6 = (0 : Word) := by decide
  simp only [composeBits, encodeControl, cmdField, destField, flowDoneField, BitVec.ofNat_toNat, hFlag, hRsv,
    BitVec.shiftLeft_zero]
  ac_rfl

/-- The FLOW_DONE field reads back (R89, R160). -/
theorem fieldGet_flowDone_encodeControl (c : Cmd) (d : BitVec 3) (f : Bool) (r : BitVec 26) :
    (fieldGet (encodeControl c d f r) flowDoneField).toNat = f.toNat := by
  have hBit : (encodeControl c d f r).extractLsb' 5 1 = BitVec.ofBool f := by
    apply BitVec.eq_of_getLsbD_eq
    intro i hi
    obtain rfl : i = 0 := by omega
    rw [BitVec.getLsbD_extractLsb', Nat.add_zero, encodeControl_flowDone]
    simp
  rw [fieldGet_toNat_extract _ (by decide)]
  exact (congrArg BitVec.toNat hBit).trans (BitVec.toNat_ofBool f)

/-- Settles O46: Compose accepts the three fields, and each projection reads its own bits of the encoder's word. -/
theorem encoderIsComposition : Obligations.EncoderIsComposition := by
  intro c d f r
  refine ⟨?_, controlCmd_encodeControl c d f r, controlDest_encodeControl c d f r,
    fieldGet_flowDone_encodeControl c d f r, encodeControl_rsv c d f r⟩
  rw [compose_of_composable (composable_control c d f), composeBits_control]

end Sys2Proof.Machine
end

section
/-! PROOFS. Serving a request: every hardware request runs as the operation it asks for (R91), what is none is refused (R92),
a stuck machine has no step (R214), a READ changes only the response (R63). -/

namespace Sys2Proof.Machine

/-! ## The operation a request runs -/

/-- A T-format row's meaning is that of its operation (R91). -/
theorem exec_of_operationOf {i : Instr} {op : Operation} (h : operationOf i = some op) (s : State) :
    exec i s = execOperation op s := by
  cases i <;> cases h <;> rfl

/-- A parsed operation decodes to its row, or it matches none (R91). -/
theorem decode_of_parse {key : Key} {payload : Payload} {op : Operation} (h : parse key payload = .operation op) :
    (∃ i, decode key payload = .row i ∧ operationOf i = some op) ∨ decode key payload = .unmatched op := by
  cases hDecode : decode key payload with
  | row i =>
    obtain ⟨op', hi, hRequest⟩ := encode_eq_transaction_iff.mp (encode_of_decode hDecode)
    rw [← parse_eq_operation_iff, h] at hRequest
    cases hRequest
    exact .inl ⟨i, rfl, hi⟩
  | unmatched op' =>
    simp only [decode, h] at hDecode
    split at hDecode <;> cases hDecode
    exact .inr rfl
  | rejected why =>
    simp only [decode, h] at hDecode
    split at hDecode <;> cases hDecode

/-- An operation that matches no row is the one the request parses to (R91). -/
theorem parse_of_decode_unmatched {key : Key} {payload : Payload} {op : Operation}
    (h : decode key payload = .unmatched op) : parse key payload = .operation op := by
  cases hParse : parse key payload with
  | rejected why => rw [decode, hParse] at h; cases h
  | operation op' =>
    rcases decode_of_parse hParse with ⟨i, hRow, -⟩ | hUnmatched
    · rw [hRow] at h; cases h
    · rw [hUnmatched] at h; cases h; rfl

/-- A hardware request runs its operation, whether it matches a row or not (R91). -/
theorem serve_of_parse {key : Key} {payload : Payload} {op : Operation} (h : parse key payload = .operation op)
    (s : State) : serve (.transaction key payload) s = execOperation op s := by
  rcases decode_of_parse h with ⟨i, hRow, hi⟩ | hUnmatched
  · rw [serve, hRow]
    exact exec_of_operationOf hi s
  · rw [serve, hUnmatched]

/-- A transaction that is no hardware request is refused by the name of its rejection (R92). -/
theorem serve_of_parse_rejected {key : Key} {payload : Payload} {why : Rejection} (h : parse key payload = .rejected why)
    (s : State) : serve (.transaction key payload) s = .refused (refusalOf why) := by
  rw [serve, decode, h]

/-- A live machine serves the oldest request, which is taken from the list (R91). -/
theorem step_of_requests {s : State} {r : Request} {rest : List Request} (hl : s.fatal = none)
    (hr : s.requests = r :: rest) : step s = serve r { s with requests := rest } := by
  rw [step, serveNext, ifLive_live hl, hr]

/-- A live machine with no request stays as it is (R226). -/
theorem step_of_no_request {s : State} (hl : s.fatal = none) (hr : s.requests = []) : step s = .next s := by
  rw [step, serveNext, ifLive_live hl, hr]

/-- A step that serves a request and answers a next state ran the operation at the head of the list (R91). -/
theorem step_next_operation {s t : State} {r : Request} {rest : List Request} (hr : s.requests = r :: rest)
    (h : step s = .next t) :
    s.fatal = none ∧ ∃ op, headOperation s = some op ∧ execOperation op { s with requests := rest } = .next t := by
  obtain ⟨hl, -⟩ := ifLive_next h
  refine ⟨hl, ?_⟩
  rw [step_of_requests hl hr] at h
  cases r with
  | fetch addr => cases h
  | transaction key payload =>
    cases hParse : parse key payload with
    | rejected why => rw [serve_of_parse_rejected hParse] at h; cases h
    | operation op =>
      rw [serve_of_parse hParse] at h
      exact ⟨op, by simp [headOperation, hr, hParse], h⟩

/-- Settles O6. -/
theorem stepRunsDecodedRow : Obligations.StepRunsDecodedRow := by
  refine ⟨fun s key payload rest i hl hr hDecode => ?_, fun s => step_of_no_request⟩
  rw [step_of_requests hl hr, serve, hDecode]

/-- Settles O5: each of the three is refused before anything runs. -/
theorem reservedRequestsAreRefused : Obligations.ReservedRequestsAreRefused := by
  refine fun s rest hl => ⟨fun key payload hr hOp => ?_, fun key payload hr hOp hFields => ?_, fun addr hr => ?_⟩
  · rw [step_of_requests hl hr, serve_of_parse_rejected (if_pos hOp)]
    rfl
  · have hNotReserved : keyOp key ≠ 3 := by
      rw [show keyOp key = 2 from hOp]
      decide
    have hParse : parse key payload = .rejected .advanceFields :=
      (if_neg hNotReserved).trans ((if_pos hOp).trans (if_neg fun h => hFields.elim (· h.1) (· h.2)))
    rw [step_of_requests hl hr, serve_of_parse_rejected hParse]
    rfl
  · rw [step_of_requests hl hr]
    rfl

/-- Settles O23: every operation and every meaning starts with the check of the mark. -/
theorem stuckMachineHasNoStep : Obligations.StuckMachineHasNoStep :=
  fun _ _ h => ⟨ifLive_stuck h _, fun i => by cases i <;> exact ifLive_stuck h _⟩

/-! ## READ -/

/-- A request without data or ticks that asks for an operation asks for a READ (R85). -/
theorem operation_of_empty_payload {key : Key} {op : Operation} (h : parse key .none = .operation op) :
    ∃ size off, op = .read size off := by
  have hRequest := parse_eq_operation_iff.mp h
  cases op <;> cases hRequest
  exact ⟨_, _, rfl⟩

/-- A READ whose check passes answers what the owner's handler reads at the offset inside its region (R127, R129). -/
theorem busRead_of_check_ok {s : State} {size : AccessSize} {addr : Word} {r : Region} (hl : s.fatal = none)
    (h : check s.cfg .read size addr = .ok r) :
    busRead size addr s = .next { s with response := some (.value (readHandler s r (addr.toNat - r.base))) } := by
  rw [busRead, ifLive_live hl, h]
  rfl

/-- A READ that answers a next state changed only the response (R63, R129). -/
theorem busRead_frame {size : AccessSize} {addr : Word} {s t : State} (h : busRead size addr s = .next t) :
    t = { s with response := t.response } := by
  obtain ⟨-, ⟨f, -, rfl⟩ | ⟨r, -, rfl⟩⟩ := busRead_next h <;> rfl

/-- Settles O36. -/
theorem readsChangeOnlyTheResponse : Obligations.ReadsChangeOnlyTheResponse := by
  intro s t rest key hr h
  obtain ⟨-, op, hHead, hExec⟩ := step_next_operation hr h
  have hParse : parse key .none = .operation op := by
    simp only [headOperation, hr] at hHead
    split at hHead <;> cases hHead
    assumption
  obtain ⟨size, off, rfl⟩ := operation_of_empty_payload hParse
  exact busRead_frame hExec

/-! ## Requests at a DOE's address that match no row -/

/-- The word offsets below 0x14 are those of the IV words and of CONTROL (R53). -/
theorem word_offset_cases {off : Word} (hLow : off.toNat < 0x14) (hAligned : off.toNat % 4 = 0) :
    (∃ k, off = ivOffset k) ∨ off = controlOffset := by
  by_cases hIv : off.toNat < 0x10
  · refine .inl ⟨BitVec.ofNat 2 (off.toNat / 4), BitVec.eq_of_toNat_eq ?_⟩
    rw [ivOffset_toNat, BitVec.toNat_ofNat]
    omega
  · refine .inr (BitVec.eq_of_toNat_eq ?_)
    rw [show controlOffset.toNat = 0x10 from rfl]
    omega

/-- A word access to a word of the DOE is a row of the table (R91). -/
theorem exists_operationOf_word {off : Word} (hLow : off.toNat < 0x14) (hAligned : off.toNat % 4 = 0) :
    (∃ i, operationOf i = some (.read .word off)) ∧ ∀ v, ∃ i, operationOf i = some (.write .word off v) := by
  rcases word_offset_cases hLow hAligned with ⟨k, rfl⟩ | rfl
  · exact ⟨⟨.readIv k, rfl⟩, fun v => ⟨.writeIv k v, rfl⟩⟩
  · exact ⟨⟨.readControl, rfl⟩, fun v => ⟨.writeControl v, rfl⟩⟩

/-- An operation whose request matches no row is the operation of no row (R91). -/
theorem operationOf_ne_of_unmatched {key : Key} {payload : Payload} {op : Operation}
    (h : decode key payload = .unmatched op) (i : Instr) : operationOf i ≠ some op := by
  intro hi
  rw [decode_of_operationOf hi (parse_eq_operation_iff.mp (parse_of_decode_unmatched h))] at h
  cases h

/-- An access at an address of the DOE whose checks pass is a word access to a word of the DOE (R58, R91). -/
theorem check_ok_of_doe_address {n : Nat} {cfg : Config} {kind : AccessKind} {size : AccessSize} {off : Word} {r : Region}
    (hw : cfg.wf n = true) (hLow : cfg.doeBase.toNat ≤ (cfg.doeBase + off).toNat)
    (hHigh : (cfg.doeBase + off).toNat < cfg.doeBase.toNat + 0x14)
    (h : check cfg kind size (cfg.doeBase + off) = .ok r) :
    size = .word ∧ off.toNat < 0x14 ∧ off.toNat % 4 = 0 := by
  obtain ⟨hNeedsWord, -⟩ := doeAccessNeedsAlignedWord
  obtain ⟨hWord, hAligned⟩ := (hNeedsWord n cfg kind size _ _ hw (List.mem_cons_self ..) hLow hHigh).mp ⟨r, h⟩
  obtain ⟨hBase, hEnd⟩ := wf_doeBase hw
  have hOff := off.isLt
  rw [BitVec.toNat_add] at hLow hHigh hAligned
  refine ⟨hWord, ?_, ?_⟩ <;> omega

/-- Settles O8: if the checks passed, the operation would be a row's. -/
theorem unmatchedDoeRequestFaults : Obligations.UnmatchedDoeRequestFaults := by
  intro s key payload rest op hw hl hr hUnmatched hLow hHigh
  have hParse := parse_of_decode_unmatched hUnmatched
  have hNoRow := operationOf_ne_of_unmatched hUnmatched
  have hRequest := parse_eq_operation_iff.mp hParse
  rw [step_of_requests hl hr, serve_of_parse hParse]
  cases op with
  | advance n => exact absurd rfl (hNoRow (.advance n))
  | read size off =>
    obtain rfl : off = key.extractLsb' 0 32 := by cases hRequest; exact (keyOff_encodeKey ..).symm
    cases hCheck : check s.cfg .read size (addrOf s.cfg (key.extractLsb' 0 32)) with
    | error f => exact ⟨f, busRead_of_check_error (s := { s with requests := rest }) hl hCheck⟩
    | ok r =>
      obtain ⟨rfl, hWord, hAligned⟩ := check_ok_of_doe_address hw hLow hHigh hCheck
      obtain ⟨⟨i, hi⟩, -⟩ := exists_operationOf_word hWord hAligned
      exact absurd hi (hNoRow i)
  | write size off v =>
    obtain rfl : off = key.extractLsb' 0 32 := by cases hRequest; exact (keyOff_encodeKey ..).symm
    cases hCheck : check s.cfg .write size (addrOf s.cfg (key.extractLsb' 0 32)) with
    | error f => exact ⟨f, busWrite_of_check_error (s := { s with requests := rest }) hl hCheck v⟩
    | ok r =>
      obtain ⟨rfl, hWord, hAligned⟩ := check_ok_of_doe_address hw hLow hHigh hCheck
      obtain ⟨i, hi⟩ := (exists_operationOf_word hWord hAligned).2 v
      exact absurd hi (hNoRow i)

end Sys2Proof.Machine
end

section
/-! PROOFS. The DOE's commands at fire (R177 to R186), the ADVANCE that reaches or misses the fire (R101, R107), and the
transitions of the abstract DOE state (R34, R187). -/

namespace Sys2Proof.Machine

/-! ## The command a fire performs -/

/-- The work of a command, before the fire is completed (R179 to R182). -/
def perform (c : Cmd) (dest : Nat) (s : State) : State :=
  match c with
  | .idle => doIdle s
  | .deobfuscateUds => doUds dest s
  | .deobfuscateFe => doFe dest s
  | .clearSecrets => doClear s

/-- A fire performs the command of CONTROL on the slot DEST of CONTROL, and is completed (R177, R178). -/
theorem fire_eq (s : State) :
    fire s = completeFire (perform (cmdOfBits (s.control.extractLsb' 0 2)) (controlDest s.control) s) := by
  unfold fire perform
  rw [controlCmd_eq]
  cases cmdOfBits (s.control.extractLsb' 0 2) <;> rfl

/-- The meaning of a CTRL-format row is its command's work, completed (R177, R183). -/
theorem exec_controlInstr {s : State} (hl : s.fatal = none) (c : Cmd) (d : BitVec 3) (f : Bool) (r : BitVec 26) :
    exec (controlInstr c d f r) s = .next (completeFire (perform c d.toNat s)) := by
  cases c <;> exact ifLive_live hl _

/-- Settles O7: both sides perform the command and the DEST of one CONTROL word. -/
theorem fireRunsCommandInControl : Obligations.FireRunsCommandInControl := by
  intro s t hl hPending hDue
  rw [doePoll_due hPending hDue, fire_eq, decodeControl_eq, exec_controlInstr (by exact hl), controlDest_eq]

/-! ## Completing a fire -/

/-- A fire that did not go fatal ends with FLOW_DONE set (R183). -/
theorem completeFire_live {s : State} (hl : s.fatal = none) :
    completeFire s = { s with control := s.control ||| 0x20 } := by
  simp [completeFire, hl, setFlowDone_eq]

/-- A fire that went fatal changes nothing more (R186). -/
theorem completeFire_stuck {s : State} {c : FatalInfo} (h : s.fatal = some c) : completeFire s = s := by
  simp [completeFire, h]

/-- Settles O16. -/
theorem idleFireSetsOnlyFlowDone : Obligations.IdleFireSetsOnlyFlowDone := by
  intro s d f r hl
  exact (exec_controlInstr hl .idle d f r).trans (congrArg Host.Outcome.next (completeFire_live hl))

/-- Settles O19. -/
theorem clearSecretsZeroesStore : Obligations.ClearSecretsZeroesStore := by
  intro s d f r hl
  exact (exec_controlInstr hl .clearSecrets d f r).trans
    (congrArg Host.Outcome.next (completeFire_live (s := s.clearSecretStore) hl))

/-! ## Decrypts -/

/-- A plaintext goes into a slot of the vault, and the fire is completed (R179, R183). -/
theorem completeFire_deliver_some {s : State} {dest : Nat} (hl : s.fatal = none) (h : dest < s.kv.length) (b : KeySlot) :
    completeFire (deliver s dest (some b)) = { s with kv := s.kv.set dest b, control := s.control ||| 0x20 } := by
  have hDeliver : deliver s dest (some b) = s.setSlot dest b := if_pos h
  rw [hDeliver, completeFire_live (by exact hl)]
  rfl

/-- A failing cipher call for a slot of the vault sets the mark only (R186). -/
theorem completeFire_deliver_none {s : State} {dest : Nat} (h : dest < s.kv.length) :
    completeFire (deliver s dest none) = { s with fatal := some .cipherFail } := by
  have hDeliver : deliver s dest none = s.goFatal .cipherFail := if_pos h
  rw [hDeliver]
  exact completeFire_stuck (State.goFatal_fatal s .cipherFail)

/-- A DEST past the vault sets the mark only (R186). -/
theorem completeFire_deliver_past {s : State} {dest : Nat} (h : s.kv.length ≤ dest) (slot : Option KeySlot) :
    completeFire (deliver s dest slot) = { s with fatal := some (.vaultWrite dest) } := by
  have hDeliver : deliver s dest slot = s.goFatal (.vaultWrite dest) := if_neg (Nat.not_lt.mpr h)
  rw [hDeliver]
  exact completeFire_stuck (State.goFatal_fatal s (.vaultWrite dest))

/-- The slot value of DEOBFUSCATE_UDS where the cipher does not fail (R179). -/
theorem udsSlot_some {s : State} (h : (⟨s.doekey, s.iv, s.uds.toList⟩ : CipherCall) ∉ s.cfg.cipherFailures) :
    udsSlot s = some (Config.aes256CbcPlaintext 3 s.doekey s.iv s.uds ++ zeros 16) :=
  congrArg (Option.map (· ++ zeros 16)) (decrypt_some h)

/-- The slot value of DEOBFUSCATE_FE where the cipher does not fail (R180). -/
theorem feSlot_some {s : State} (h : (⟨s.doekey, s.iv, s.fe.toList⟩ : CipherCall) ∉ s.cfg.cipherFailures) :
    feSlot s = some (Config.aes256CbcPlaintext 4 s.doekey s.iv s.fe) :=
  decrypt_some h

/-- The meaning of DEOBFUSCATE_UDS on a live machine (R179). -/
theorem exec_deobfuscateUds_live {s : State} (hl : s.fatal = none) (d : BitVec 3) (f : Bool) (r : BitVec 26) :
    exec (.deobfuscateUds d f r) s = .next (completeFire (deliver s d.toNat (udsSlot s))) :=
  exec_controlInstr hl .deobfuscateUds d f r

/-- The meaning of DEOBFUSCATE_FE on a live machine (R180). -/
theorem exec_deobfuscateFe_live {s : State} (hl : s.fatal = none) (d : BitVec 3) (f : Bool) (r : BitVec 26) :
    exec (.deobfuscateFe d f r) s = .next (completeFire (deliver s d.toNat (feSlot s))) :=
  exec_controlInstr hl .deobfuscateFe d f r

/-- Settles O17. -/
theorem deobfuscateUdsWritesSlot : Obligations.DeobfuscateUdsWritesSlot := by
  intro s d f r hl hDest hCipher
  rw [exec_deobfuscateUds_live hl, udsSlot_some hCipher, completeFire_deliver_some hl hDest]

/-- Settles O18. -/
theorem deobfuscateFeWritesSlot : Obligations.DeobfuscateFeWritesSlot := by
  intro s d f r hl hDest hCipher
  rw [exec_deobfuscateFe_live hl, feSlot_some hCipher, completeFire_deliver_some hl hDest]

/-- Settles O20: the vault's refusal comes before the cipher's result. -/
theorem decryptFireCanGoFatal : Obligations.DecryptFireCanGoFatal := by
  intro s d f r hl
  refine ⟨fun hPast => ⟨?_, ?_⟩, fun hDest hCipher => ?_, fun hDest hCipher => ?_⟩
  · rw [exec_deobfuscateUds_live hl, completeFire_deliver_past hPast]
  · rw [exec_deobfuscateFe_live hl, completeFire_deliver_past hPast]
  · have hSlot : udsSlot s = none := congrArg (Option.map (· ++ zeros 16)) (decrypt_none hCipher)
    rw [exec_deobfuscateUds_live hl, hSlot, completeFire_deliver_none hDest]
  · have hSlot : feSlot s = none := decrypt_none hCipher
    rw [exec_deobfuscateFe_live hl, hSlot, completeFire_deliver_none hDest]

/-- A decrypt command with a DEST past the vault fires into the mark only (R186). -/
theorem fire_past {s : State} (hCmd : s.control.extractLsb' 0 2 = 1 ∨ s.control.extractLsb' 0 2 = 2)
    (hPast : s.kv.length ≤ controlDest s.control) :
    fire s = { s with fatal := some (.vaultWrite (controlDest s.control)) } := by
  rw [fire_eq]
  rcases hCmd with hCmd | hCmd <;> rw [hCmd] <;> exact completeFire_deliver_past hPast _

/-- An Idle CONTROL word fires into FLOW_DONE only (R182, R183). -/
theorem fire_idle {s : State} (hl : s.fatal = none) (hCmd : s.control.extractLsb' 0 2 = 0) :
    fire s = { s with control := s.control ||| 0x20 } := by
  rw [fire_eq, hCmd]
  exact completeFire_live hl

/-! ## ADVANCE -/

/-- The response of an ADVANCE that ends live (R101). -/
theorem advanceResponse_live {s : State} (h : s.fatal = none) : advanceResponse s = .done := by
  simp [advanceResponse, h]

/-- The response of an ADVANCE that went fatal (R101, R214). -/
theorem advanceResponse_stuck {s : State} {c : FatalInfo} (h : s.fatal = some c) : advanceResponse s = .stuck c := by
  simp [advanceResponse, h]

/-- An ADVANCE that ends live answers Ok() (R101). -/
theorem exec_advance_done {s u : State} {n : Nat} (hl : s.fatal = none) (h : advanced n s = u) (hu : u.fatal = none) :
    exec (.advance n) s = .next { u with response := some .done } := by
  rw [exec_advance_live hl, h, advanceResponse_live hu]
  rfl

/-- An ADVANCE that ends with the mark set answers Stuck(Fatal) (R101, R214). -/
theorem exec_advance_stuck {s u : State} {n : Nat} {c : FatalInfo} (hl : s.fatal = none) (h : advanced n s = u)
    (hu : u.fatal = some c) : exec (.advance n) s = .next { u with response := some (.stuck c) } := by
  rw [exec_advance_live hl, h, advanceResponse_stuck hu]
  rfl

/-- Settles O14: the fan-out's equations, and the response that the mark decides. -/
theorem advanceMovesTimeThenPolls : Obligations.AdvanceMovesTimeThenPolls := by
  refine ⟨fun n s hl => ⟨_, rfl, exec_advance_done hl rfl, fun c => exec_advance_stuck hl rfl⟩, pollAll_nil,
    fun p ps s => pollAll_cons_live ps, fun p ps s hFatal => ?_⟩
  obtain ⟨c, hc⟩ := Option.ne_none_iff_exists'.mp hFatal
  exact pollAll_cons_stuck ps hc

/-- An ADVANCE that does not reach the fire time, with the DOE alone in POLL_ORDER, moves the time only (R101, R107). -/
theorem advanced_quiet {s : State} {n : Nat} (hOrder : s.cfg.pollOrder = [.doe])
    (hLater : ∀ t, s.pending = some t → s.now + n < t) : advanced n s = { s with now := s.now + n } := by
  rw [advanced, hOrder, pollAll_doe]
  exact doePoll_quiet (s := { s with now := s.now + n }) hLater

/-- Settles O15. -/
theorem advanceBeforeFireChangesOnlyTime : Obligations.AdvanceBeforeFireChangesOnlyTime :=
  fun _ _ hl hOrder hLater => exec_advance_done hl (advanced_quiet hOrder hLater) hl

/-- Settles O24: the DOE's poll is the first, it goes fatal, and the fan-out stops there. -/
theorem fatalAdvanceStopsThePolls : Obligations.FatalAdvanceStopsThePolls := by
  intro n s t rest hl hOrder hPending hDue hCmd hPast
  rw [← controlDest_eq] at hPast ⊢
  have hPoll : poll .doe { s with now := s.now + n } = { s with
      now := s.now + n
      pending := none
      fatal := some (.vaultWrite (controlDest s.control)) } :=
    (doePoll_due (s := { s with now := s.now + n }) hPending hDue).trans
      (fire_past (s := { s with now := s.now + n, pending := none }) hCmd hPast)
  have hAll : advanced n s = poll .doe { s with now := s.now + n } := by
    rw [advanced, hOrder]
    exact pollAll_cons_stuck rest (congrArg State.fatal hPoll)
  exact exec_advance_stuck hl (hAll.trans hPoll) rfl

/-! ## The abstract state -/

/-- A pending action is an accepted command (R34). -/
theorem doeState_of_pending {s : State} {a : Nat} (h : s.pending = some a) : doeState s = .commandAccepted := by
  simp [doeState, doeStateOf, h]

/-- With nothing pending FLOW_DONE decides (R34). -/
theorem doeState_of_empty {s : State} (h : s.pending = none) :
    doeState s = if flowDone s.control then .completed else .idle := by
  simp [doeState, doeStateOf, h]

/-- FLOW_DONE is set in a word with bit 5 on (R29). -/
theorem flowDone_or (w : Word) : flowDone (w ||| 0x20) = true := by
  rw [← setFlowDone_eq, flowDone_set]

/-- The state an Idle write leaves: the word stored, the timer slot as it was (R174, R175). -/
theorem exec_writeControl_idle {s t : State} {v : Word} (hw : s.cfg.wf s.peripherals.length = true)
    (hv : v.extractLsb' 0 2 = 0) (h : exec (.writeControl v) s = .next t) :
    t = { s with control := v, response := some .done } := by
  obtain ⟨-, rfl⟩ := exec_writeControl_next hw h
  rw [doeWriteControl_eq, if_pos hv]
  rfl

/-- The state an ADVANCE leaves that reaches the fire and stays live: nothing pending, FLOW_DONE set (R183). -/
theorem exec_advance_due {s t : State} {n a : Nat} (hOrder : s.cfg.pollOrder = [.doe]) (hPending : s.pending = some a)
    (hDue : a ≤ s.now + n) (h : exec (.advance n) s = .next t) (hLive : t.fatal = none) :
    t.pending = none ∧ t.control = s.control ||| 0x20 := by
  obtain ⟨hl, rfl⟩ := execAdvance_next h
  rw [State.respond_fatal, advanced_due hOrder hPending hDue] at hLive
  rw [State.respond_pending, State.respond_control, advanced_due hOrder hPending hDue, fire_pending]
  rcases fire_control (s := { s with now := s.now + n, pending := none }) hl with ⟨-, hControl⟩ | ⟨hFatal, -⟩
  · exact ⟨rfl, hControl⟩
  · exact absurd hLive hFatal

/-- Settles O47, transition by transition. -/
theorem doeStateTransitions : Obligations.DoeStateTransitions := by
  refine fun s t v n hw hOrder => ⟨fun h hv => ?_, fun h hv => ?_, fun h hLive => ?_, fun h hLater => ?_⟩
  · obtain rfl := exec_writeControl_accept hw hv h
    rfl
  · obtain rfl := exec_writeControl_idle hw hv h
    cases hPending : s.pending with
    | none =>
      rw [doeState_of_empty (s := s) hPending, doeState_of_empty rfl]
      cases flowDone s.control <;> rfl
    | some a =>
      rw [doeState_of_pending (s := s) hPending, doeState_of_pending rfl]
      rfl
  · rintro ⟨a, hPending, hDue⟩
    obtain ⟨hEmpty, hControl⟩ := exec_advance_due hOrder hPending hDue h hLive
    rw [doeState_of_empty hEmpty, hControl, flowDone_or]
    rfl
  · obtain ⟨-, rfl⟩ := execAdvance_next h
    rw [advanced_quiet hOrder hLater]
    rfl

/-- An ADVANCE that reaches the fire of an Idle CONTROL word sets FLOW_DONE and empties the slot (R175, R182). -/
theorem exec_advance_idle_due {s : State} {n t : Nat} (hl : s.fatal = none) (hOrder : s.cfg.pollOrder = [.doe])
    (hPending : s.pending = some t) (hDue : t ≤ s.now + n) (hIdle : s.control.extractLsb' 0 2 = 0) :
    exec (.advance n) s = .next { s with
      now := s.now + n, control := s.control ||| 0x20, pending := none, response := some .done } :=
  exec_advance_done hl ((advanced_due hOrder hPending hDue).trans
    (fire_idle (s := { s with now := s.now + n, pending := none }) hl hIdle)) hl

/-- Settles O48: the Idle write leaves the accepted command's fire time, and the fire finds the Idle word. -/
theorem idleWriteMakesFireNoop : Obligations.IdleWriteMakesFireNoop := by
  intro s t u v w n hw hl hOrder hv hIdle hn hAccept hWrite
  obtain rfl := exec_writeControl_accept hw hv hAccept
  obtain rfl := exec_writeControl_idle (by exact hw) hIdle hWrite
  exact exec_advance_idle_due (by exact hl) (by exact hOrder) rfl (Nat.add_le_add_left hn _) (by exact hIdle)

end Sys2Proof.Machine
end

section
/-! PROOFS. The polls: what one poll and the whole fan-out leave of the machine and of each DOE's registers (R41, R101, R224),
and what a WRITE leaves. -/

namespace Sys2Proof.Machine

/-! ## The DOE that a poller polls -/

/-- The registers that a poller polls: those of the DOE at DOE_BASE, or of a further DOE (R170, R224). -/
def State.unit (s : State) : Poller → Option DoeUnit
  | .doe => some ⟨s.iv, s.control, s.pending⟩
  | .furtherDoe j => s.further[j]?
  | .peripheral _ => none

@[simp] theorem State.unit_doe (s : State) : s.unit .doe = some ⟨s.iv, s.control, s.pending⟩ := rfl
@[simp] theorem State.unit_furtherDoe (s : State) (j : Nat) : s.unit (.furtherDoe j) = s.further[j]? := rfl
@[simp] theorem State.unit_peripheral (s : State) (p : Nat) : s.unit (.peripheral p) = none := rfl

/-- What polls can make of a DOE's registers: at most FLOW_DONE set and the slot emptied (R41, R177, R183). -/
structure UnitPolled (d e : DoeUnit) : Prop where
  iv      : e.iv = d.iv
  control : e.control = d.control ∨ e.control = d.control ||| 0x20
  pending : e.pending = d.pending ∨ e.pending = none

/-- No poll. -/
theorem UnitPolled.refl (d : DoeUnit) : UnitPolled d d := ⟨rfl, .inl rfl, .inl rfl⟩

/-- One poll after another. -/
theorem UnitPolled.trans {d e f : DoeUnit} (h : UnitPolled d e) (h' : UnitPolled e f) : UnitPolled d f where
  iv := h'.iv.trans h.iv
  control := by
    rcases h'.control with h2 | h2 <;> rcases h.control with h1 | h1 <;> rw [h2, h1]
    · exact .inl rfl
    · exact .inr rfl
    · exact .inr rfl
    · exact .inr (by rw [BitVec.or_assoc, BitVec.or_self])
  pending := h'.pending.elim (fun e => h.pending.imp e.trans e.trans) .inr

/-- What polls can make of a machine: time, configuration and requests stay, and so do the numbers of slots, DOEs and
peripherals; no secret comes back; of each DOE, what `UnitPolled` says (R41, R101, R181). -/
structure Polled (s t : State) : Prop where
  now         : t.now = s.now
  cfg         : t.cfg = s.cfg
  requests    : t.requests = s.requests
  kv          : t.kv.length = s.kv.length
  peripherals : t.peripherals.length = s.peripherals.length
  further     : t.further.length = s.further.length
  cleared     : SecretsCleared s → SecretsCleared t
  units       : ∀ q, Option.Rel UnitPolled (s.unit q) (t.unit q)

/-- Registers that no poll touched. -/
theorem rel_unitPolled_refl (o : Option DoeUnit) : Option.Rel UnitPolled o o := by
  cases o with
  | none => exact .none
  | some d => exact .some (.refl d)

/-- No poll. -/
theorem Polled.refl (s : State) : Polled s s :=
  ⟨rfl, rfl, rfl, rfl, rfl, rfl, id, fun _ => rel_unitPolled_refl _⟩

/-- One poll after another. -/
theorem Polled.trans {s t u : State} (h : Polled s t) (h' : Polled t u) : Polled s u where
  now := h'.now.trans h.now
  cfg := h'.cfg.trans h.cfg
  requests := h'.requests.trans h.requests
  kv := h'.kv.trans h.kv
  peripherals := h'.peripherals.trans h.peripherals
  further := h'.further.trans h.further
  cleared := h'.cleared ∘ h.cleared
  units q := by
    have h1 := h.units q
    have h2 := h'.units q
    revert h1 h2
    generalize s.unit q = a, t.unit q = b, u.unit q = c
    rintro (h1 | _) (h2 | _)
    · exact .some (h1.trans h2)
    · exact .none

/-- A DOE before the polls is still there, as `UnitPolled` says. -/
theorem Polled.unit_after {s t : State} (h : Polled s t) {q : Poller} {d : DoeUnit} (hd : s.unit q = some d) :
    ∃ e, t.unit q = some e ∧ UnitPolled d e := by
  have hRel := h.units q
  rw [hd] at hRel
  generalize t.unit q = o at hRel ⊢
  obtain ⟨hUnit⟩ := hRel
  exact ⟨_, rfl, hUnit⟩

/-- A DOE after the polls was there before. -/
theorem Polled.unit_before {s t : State} (h : Polled s t) {q : Poller} {e : DoeUnit} (he : t.unit q = some e) :
    ∃ d, s.unit q = some d ∧ UnitPolled d e := by
  have hRel := h.units q
  rw [he] at hRel
  generalize s.unit q = o at hRel ⊢
  obtain ⟨hUnit⟩ := hRel
  exact ⟨_, rfl, hUnit⟩

/-! ## One poll -/

/-- Polls that leave the further DOEs and of the DOE's registers what `UnitPolled` says. -/
theorem rel_units_of_doe {s t : State} (hFurther : t.further = s.further)
    (hDoe : UnitPolled ⟨s.iv, s.control, s.pending⟩ ⟨t.iv, t.control, t.pending⟩) (q : Poller) :
    Option.Rel UnitPolled (s.unit q) (t.unit q) := by
  cases q with
  | doe => exact .some hDoe
  | furtherDoe j =>
    rw [State.unit_furtherDoe, State.unit_furtherDoe, hFurther]
    exact rel_unitPolled_refl _
  | peripheral p => exact .none

/-- Emptying the slot is a poll's work (R177). -/
theorem polled_emptied (s : State) : Polled s { s with pending := none } :=
  ⟨rfl, rfl, rfl, rfl, rfl, rfl, id, rel_units_of_doe rfl ⟨rfl, .inl rfl, .inr rfl⟩⟩

/-- A fire is a poll's work (R177 to R186). -/
theorem fire_polled {s : State} (hl : s.fatal = none) : Polled s (fire s) := by
  have hSet : UnitPolled ⟨s.iv, s.control, s.pending⟩ ⟨s.iv, s.control ||| 0x20, s.pending⟩ := ⟨rfl, .inr rfl, .inl rfl⟩
  rcases fire_cases hl with ⟨d, b, -, -, e⟩ | ⟨d, -, -, e⟩ | ⟨-, e⟩ | e | e <;> rw [e]
  · exact ⟨rfl, rfl, rfl, List.length_set, rfl, rfl, id, rel_units_of_doe rfl hSet⟩
  · exact ⟨rfl, rfl, rfl, rfl, rfl, rfl, id, rel_units_of_doe rfl (.refl _)⟩
  · exact ⟨rfl, rfl, rfl, rfl, rfl, rfl, id, rel_units_of_doe rfl (.refl _)⟩
  · exact ⟨rfl, rfl, rfl, rfl, rfl, rfl, fun _ => ⟨rfl, rfl, rfl⟩, rel_units_of_doe rfl hSet⟩
  · exact ⟨rfl, rfl, rfl, rfl, rfl, rfl, id, rel_units_of_doe rfl hSet⟩

/-- The DOE's poll is a poll's work (R177). -/
theorem doePoll_polled {s : State} (hl : s.fatal = none) : Polled s (doePoll s) := by
  rcases doePoll_cases s with ⟨e, -⟩ | ⟨t, -, -, e⟩ <;> rw [e]
  · exact .refl s
  · exact (polled_emptied s).trans (fire_polled (by exact hl))

/-- A further DOE's poll is the DOE's on its own registers; the shared state is as that poll leaves it (R224). -/
theorem atFurther_polled {s : State} {j : Nat} {d : DoeUnit} {f : State → State} (hd : s.further[j]? = some d)
    (h : Polled (s.withDoe d) (f (s.withDoe d))) : Polled s (atFurther j f s) := by
  rw [atFurther_some hd rfl]
  refine ⟨h.now, h.cfg, h.requests, h.kv, h.peripherals, List.length_set, h.cleared, fun q => ?_⟩
  cases q with
  | doe => exact .some (.refl _)
  | peripheral p => exact .none
  | furtherDoe i =>
    rw [State.unit_furtherDoe, State.unit_furtherDoe]
    by_cases hij : i = j
    · subst hij
      obtain ⟨hLength, -⟩ := List.getElem?_eq_some_iff.mp hd
      rw [List.getElem?_set_self hLength, hd]
      exact h.units .doe
    · rw [List.getElem?_set_ne (Ne.symm hij)]
      exact rel_unitPolled_refl _

/-- Every poll of a live machine (R69, R101). -/
theorem poll_polled (p : Poller) {s : State} (hl : s.fatal = none) : Polled s (poll p s) := by
  cases p with
  | doe => exact doePoll_polled hl
  | peripheral i => exact ⟨rfl, rfl, rfl, rfl, List.length_set, rfl, id, rel_units_of_doe rfl (.refl _)⟩
  | furtherDoe j =>
    cases hd : s.further[j]? with
    | none => rw [poll, atFurther_none hd]; exact .refl s
    | some d => exact atFurther_polled hd (doePoll_polled (by exact hl))

/-! ## The fan-out and ADVANCE -/

/-- The whole fan-out of a live machine (R101). -/
theorem pollAll_polled (ps : List Poller) {s : State} (hl : s.fatal = none) : Polled s (pollAll ps s) :=
  pollAll_keeps (fun p _ hl' h => h.trans (poll_polled p hl')) ps s hl (.refl s)

/-- What an ADVANCE leaves: the time moved by n, then the polls' work (R101). -/
theorem execAdvance_polled {n : Nat} {s t : State} (h : execAdvance n s = .next t) :
    Polled { s with now := s.now + n } t := by
  obtain ⟨hl, rfl⟩ := execAdvance_next h
  exact (pollAll_polled s.cfg.pollOrder (s := { s with now := s.now + n }) hl).trans
    ⟨rfl, rfl, rfl, rfl, rfl, rfl, id, fun _ => rel_unitPolled_refl _⟩

/-! ## WRITE -/

/-- What a WRITE leaves: registers and other peripherals' states only, of the same DOEs and peripherals (R41, R131). -/
theorem busWrite_frame {size : AccessSize} {addr v : Word} {s t : State} (h : busWrite size addr v s = .next t) :
    t = { s with
      iv := t.iv, control := t.control, pending := t.pending, further := t.further, peripherals := t.peripherals
      response := t.response } ∧
    t.further.length = s.further.length ∧ t.peripherals.length = s.peripherals.length := by
  obtain ⟨-, ⟨f, -, rfl⟩ | ⟨r, -, rfl⟩⟩ := busWrite_next h
  · exact ⟨rfl, rfl, rfl⟩
  · rcases writeHandler_cases s r (addr.toNat - r.base) v with
      ⟨k, e⟩ | ⟨-, e⟩ | ⟨-, e⟩ | (e | ⟨j, d, d', -, -, e⟩) | ⟨p, x, e⟩ <;> rw [e]
    · generalize setIvWord s.cfg.ivByteOrder s.iv k v = iv
      exact ⟨rfl, rfl, rfl⟩
    · exact ⟨rfl, rfl, rfl⟩
    · exact ⟨rfl, rfl, rfl⟩
    · exact ⟨rfl, rfl, rfl⟩
    · exact ⟨rfl, List.length_set, rfl⟩
    · exact ⟨rfl, rfl, List.length_set⟩

/-! ## Who writes each piece of state -/

/-- Settles O52: a READ and a WRITE leave the secret store, and polls keep it cleared. -/
theorem secretsStayCleared : Obligations.SecretsStayCleared := by
  intro s t hCleared h
  obtain ⟨-, ⟨-, rfl⟩ | ⟨r, rest, -, ⟨size, addr, hExec⟩ | ⟨size, addr, v, hExec⟩ | ⟨n, hExec⟩⟩⟩ := step_next h
  · exact hCleared
  · rw [busRead_frame hExec]
    exact hCleared
  · obtain ⟨hFrame, -, -⟩ := busWrite_frame hExec
    rw [hFrame]
    exact hCleared
  · exact (execAdvance_polled hExec).cleared hCleared

/-- Settles O50, operation by operation. -/
theorem eachStateHasItsWriters : Obligations.EachStateHasItsWriters := by
  intro s t r rest hr h
  obtain ⟨-, op, hHead, hExec⟩ := step_next_operation hr h
  rw [hHead]
  cases op with
  | read size off =>
    have hFrame := busRead_frame hExec
    rw [hFrame]
    exact ⟨rfl, rfl, rfl, rfl, rfl, rfl⟩
  | write size off v =>
    obtain ⟨hFrame, hFurther, hPeripherals⟩ := busWrite_frame hExec
    refine ⟨?_, ?_, ?_, hPeripherals, hFurther, ?_⟩ <;> rw [hFrame]
    exact ⟨rfl, rfl, rfl, rfl, rfl, rfl⟩
  | advance n =>
    have hPolled := execAdvance_polled hExec
    refine ⟨hPolled.requests, hPolled.cfg, hPolled.kv, hPolled.peripherals, hPolled.further, hPolled.now, ?_⟩
    obtain ⟨_, ⟨⟩, hDoe⟩ := hPolled.unit_after (State.unit_doe _)
    refine ⟨hDoe.iv, hDoe.control, hDoe.pending, fun j d hd => ?_⟩
    obtain ⟨e, he, hUnit⟩ := hPolled.unit_after (q := .furtherDoe j) hd
    exact ⟨e, he, hUnit.iv, hUnit.control, hUnit.pending⟩

end Sys2Proof.Machine
end

section
/-! PROOFS. The machine's invariant: it holds after construction (R240), and every step keeps it (R104, R109, R186). -/

namespace Sys2Proof.Machine

/-! ## The invariant, DOE by DOE -/

/-- No action of the DOE that a poller polls is due (R107, R109). -/
def Quiet (s : State) (q : Poller) : Prop := ∀ d t, s.unit q = some d → d.pending = some t → s.now < t

/-- The cause of a fatal mark is one that the vault's size or the configuration allows (R186). -/
def CauseAllowed (s : State) : FatalInfo → Prop
  | .vaultWrite d => s.kv.length ≤ d ∧ d < 8
  | .cipherFail => s.cfg.cipherFailures ≠ []

/-- Some DOE's action has been consumed (R177). -/
def SomeConsumed (s : State) : Prop := ∃ q d, s.unit q = some d ∧ d.pending = none

/-- `MachineInv` with one clause for every DOE. -/
structure UnitInv (s : State) : Prop where
  cfgWf        : s.cfg.wf s.peripherals.length = true
  slots        : 1 ≤ s.kv.length
  furtherCount : s.further.length = s.cfg.furtherBases.length
  pendingBound : ∀ q d t, s.unit q = some d → d.pending = some t → t ≤ s.now + 1000
  quiet        : s.fatal = none → ∀ q ∈ s.cfg.pollOrder, Quiet s q
  stuck        : ∀ c, s.fatal = some c → CauseAllowed s c ∧ SomeConsumed s

/-- The invariant is its reading DOE by DOE. -/
theorem machineInv_iff {s : State} : MachineInv s ↔ UnitInv s := by
  constructor
  · intro h
    refine ⟨h.cfgWf, h.slots, h.furtherCount, fun q d t hd ht => ?_, fun hl q hq d t hd ht => ?_, fun c hc => ⟨?_, ?_⟩⟩
    · cases q with
      | doe => cases hd; exact h.pendingBound t ht
      | furtherDoe j => exact h.furtherPendingBound j d t hd ht
      | peripheral p => cases hd
    · cases q with
      | doe => cases hd; exact h.pendingLater hl hq t ht
      | furtherDoe j => exact h.furtherPendingLater hl j hq d t hd ht
      | peripheral p => cases hd
    · cases c with
      | vaultWrite d => exact h.fatalVault d hc
      | cipherFail => exact h.fatalCipher hc
    · rcases h.fatalConsumed (by simp [hc]) with hDoe | ⟨j, d, hd, hNone⟩
      · exact ⟨.doe, _, rfl, hDoe⟩
      · exact ⟨.furtherDoe j, d, hd, hNone⟩
  · intro h
    refine ⟨h.cfgWf, h.slots, h.furtherCount, fun t => h.pendingBound .doe _ t rfl,
      fun j => h.pendingBound (.furtherDoe j), fun hl hq t => h.quiet hl .doe hq _ t rfl,
      fun hl j hq => h.quiet hl (.furtherDoe j) hq, fun hFatal => ?_, fun d hc => (h.stuck _ hc).1,
      fun hc => (h.stuck _ hc).1⟩
    obtain ⟨c, hc⟩ := Option.ne_none_iff_exists'.mp hFatal
    obtain ⟨-, q, d, hd, hNone⟩ := h.stuck c hc
    cases q with
    | doe => cases hd; exact .inl hNone
    | furtherDoe j => exact .inr ⟨j, d, hd, hNone⟩
    | peripheral p => cases hd

/-! ## One poll -/

/-- After its poll a DOE has no action due: the poll was quiet, or it emptied the slot (R104, R177). -/
theorem doePoll_leaves_quiet (s : State) : Quiet (doePoll s) .doe := by
  rintro _ t ⟨⟩ ht
  rcases doePoll_cases s with ⟨e, hLater⟩ | ⟨a, -, -, e⟩ <;> simp only [e] at ht ⊢
  · exact hLater t ht
  · rw [fire_pending] at ht
    cases ht

/-- A poll that goes fatal found its action due and emptied the slot; its cause is allowed (R177, R186). -/
theorem doePoll_stuck {s : State} {c : FatalInfo} (hl : s.fatal = none) (h : (doePoll s).fatal = some c) :
    CauseAllowed s c ∧ (doePoll s).pending = none := by
  rcases doePoll_cases s with ⟨e, -⟩ | ⟨a, -, -, e⟩ <;> rw [e] at h ⊢
  · rw [hl] at h
    cases h
  · refine ⟨?_, fire_pending _⟩
    rcases fire_cases (s := { s with pending := none }) hl with
      ⟨d, b, -, -, e'⟩ | ⟨d, hd, hPast, e'⟩ | ⟨hCipher, e'⟩ | e' | e' <;> rw [e'] at h
    · rw [hl] at h; cases h
    · cases h; exact ⟨hPast, hd⟩
    · cases h; exact hCipher
    · rw [hl] at h; cases h
    · rw [hl] at h; cases h

/-- What a further DOE's poll leaves in its registers is what the DOE's poll leaves on them (R224). -/
theorem atFurther_unit {s : State} {j : Nat} {d : DoeUnit} (hd : s.further[j]? = some d) (f : State → State) :
    (atFurther j f s).unit (.furtherDoe j) = (f (s.withDoe d)).unit .doe := by
  obtain ⟨hLength, -⟩ := List.getElem?_eq_some_iff.mp hd
  rw [atFurther_some hd rfl]
  exact List.getElem?_set_self hLength

/-- The mark and the time after a further DOE's operation are those of the operation (R224). -/
theorem atFurther_shared {s : State} {j : Nat} {d : DoeUnit} (hd : s.further[j]? = some d) (f : State → State) :
    (atFurther j f s).fatal = (f (s.withDoe d)).fatal ∧ (atFurther j f s).now = (f (s.withDoe d)).now := by
  rw [atFurther_some hd rfl]
  exact ⟨rfl, rfl⟩

/-- After its poll a DOE has no action due (R104, R177, R224). -/
theorem poll_leaves_quiet (p : Poller) (s : State) : Quiet (poll p s) p := by
  cases p with
  | doe => exact doePoll_leaves_quiet s
  | peripheral i => rintro _ _ ⟨⟩
  | furtherDoe j =>
    cases hd : s.further[j]? with
    | none =>
      intro e t he
      rw [poll, atFurther_none hd, State.unit_furtherDoe, hd] at he
      cases he
    | some d =>
      intro e t he ht
      rw [poll, atFurther_unit hd] at he
      rw [poll, (atFurther_shared hd doePoll).2]
      exact doePoll_leaves_quiet _ e t he ht

/-- A poll that goes fatal has an allowed cause and has consumed an action (R177, R186, R224). -/
theorem poll_stuck {p : Poller} {s : State} {c : FatalInfo} (hl : s.fatal = none) (h : (poll p s).fatal = some c) :
    CauseAllowed s c ∧ SomeConsumed (poll p s) := by
  cases p with
  | doe =>
    obtain ⟨hCause, hNone⟩ := doePoll_stuck hl h
    exact ⟨hCause, .doe, _, rfl, hNone⟩
  | peripheral i =>
    rw [poll, State.setPeripheral_fatal, hl] at h
    cases h
  | furtherDoe j =>
    cases hd : s.further[j]? with
    | none =>
      rw [poll, atFurther_none hd, hl] at h
      cases h
    | some d =>
      rw [poll, (atFurther_shared hd doePoll).1] at h
      obtain ⟨hCause, hNone⟩ := doePoll_stuck (by exact hl) h
      exact ⟨hCause, .furtherDoe j, _, atFurther_unit hd doePoll, hNone⟩

/-! ## The fan-out -/

/-- Further polls leave a quiet DOE quiet (R107). -/
theorem Polled.quiet {s t : State} (h : Polled s t) {q : Poller} (hq : Quiet s q) : Quiet t q := by
  intro e a he ha
  obtain ⟨d, hd, hUnit⟩ := h.unit_before he
  rcases hUnit.pending with hSame | hNone
  · rw [h.now]
    exact hq d a hd (hSame ▸ ha)
  · rw [hNone] at ha
    cases ha

/-- Polls change neither the vault's size nor the configuration, so they allow the same causes. -/
theorem Polled.causeAllowed_iff {s t : State} (h : Polled s t) (c : FatalInfo) : CauseAllowed t c ↔ CauseAllowed s c := by
  cases c with
  | vaultWrite d => rw [CauseAllowed, CauseAllowed, h.kv]
  | cipherFail => rw [CauseAllowed, CauseAllowed, h.cfg]

/-- A fan-out that ends live has polled every DOE of the list, and none of them has an action due (R101, R109). -/
theorem pollAll_leaves_quiet :
    ∀ (ps : List Poller) (s : State), s.fatal = none → (pollAll ps s).fatal = none → ∀ q ∈ ps, Quiet (pollAll ps s) q
  | [], _, _, _ => by simp
  | p :: ps, s, hl, hEnd => by
    cases hp : (poll p s).fatal with
    | some c =>
      rw [pollAll_cons_stuck ps hp, hp] at hEnd
      cases hEnd
    | none =>
      rw [pollAll_cons_live ps hp] at hEnd ⊢
      refine List.forall_mem_cons.mpr ⟨?_, pollAll_leaves_quiet ps _ hp hEnd⟩
      exact (pollAll_polled ps hp).quiet (poll_leaves_quiet p s)

/-- A fan-out that goes fatal has an allowed cause and has consumed an action (R186). -/
theorem pollAll_stuck {c : FatalInfo} :
    ∀ (ps : List Poller) (s : State), s.fatal = none → (pollAll ps s).fatal = some c →
      CauseAllowed s c ∧ SomeConsumed (pollAll ps s)
  | [], s, hl, h => by
    rw [pollAll_nil, hl] at h
    cases h
  | p :: ps, s, hl, h => by
    cases hp : (poll p s).fatal with
    | some c' =>
      rw [pollAll_cons_stuck ps hp] at h ⊢
      exact poll_stuck hl h
    | none =>
      rw [pollAll_cons_live ps hp] at h ⊢
      obtain ⟨hCause, hConsumed⟩ := pollAll_stuck ps _ hp h
      exact ⟨((poll_polled p hl).causeAllowed_iff c).mp hCause, hConsumed⟩

/-! ## The three operations -/

/-- The invariant does not speak of the requests or the response. -/
theorem UnitInv.with_driver {s : State} (h : UnitInv s) (requests : List Request) (response : Option Response) :
    UnitInv { s with requests := requests, response := response } :=
  ⟨h.cfgWf, h.slots, h.furtherCount, h.pendingBound, h.quiet, h.stuck⟩

/-- ADVANCE keeps the invariant: the polls that follow the move of time leave no DOE of POLL_ORDER with a due action
(R101, R109). -/
theorem UnitInv.execAdvance {n : Nat} {s t : State} (h : UnitInv s) (hExec : execAdvance n s = .next t) : UnitInv t := by
  have hPolled := execAdvance_polled hExec
  obtain ⟨hl, rfl⟩ := execAdvance_next hExec
  refine ⟨?_, ?_, ?_, fun q e a he ha => ?_, fun hEnd => ?_, fun c hc => ?_⟩
  · rw [hPolled.cfg, hPolled.peripherals]
    exact h.cfgWf
  · rw [hPolled.kv]
    exact h.slots
  · rw [hPolled.further, hPolled.cfg]
    exact h.furtherCount
  · obtain ⟨d, hd, hUnit⟩ := hPolled.unit_before he
    rcases hUnit.pending with hSame | hNone
    · have hBound := h.pendingBound q d a hd (hSame ▸ ha)
      have hNow := hPolled.now
      simp only at hNow
      omega
    · rw [hNone] at ha
      cases ha
  · rw [hPolled.cfg]
    exact pollAll_leaves_quiet s.cfg.pollOrder _ (by exact hl) hEnd
  · obtain ⟨hCause, hConsumed⟩ := pollAll_stuck s.cfg.pollOrder _ (by exact hl) hc
    exact ⟨(hPolled.causeAllowed_iff c).mpr hCause, hConsumed⟩

/-- What a WRITE leaves in a DOE's slot, from what was there: the same, or an action DOE_LATENCY ahead (R174). -/
def Rescheduled (s : State) (q : Poller) (e : DoeUnit) : Prop :=
  ∃ d, s.unit q = some d ∧ (e.pending = d.pending ∨ e.pending = some (s.now + 1000))

/-- A write that leaves the further DOEs. -/
theorem rescheduled_of_doe {s u : State} {q : Poller} {e : DoeUnit} (he : u.unit q = some e)
    (hFurther : u.further = s.further) (hPending : u.pending = s.pending ∨ u.pending = some (s.now + 1000)) :
    Rescheduled s q e := by
  cases q with
  | doe => cases he; exact ⟨_, rfl, hPending⟩
  | furtherDoe j =>
    rw [State.unit_furtherDoe, hFurther] at he
    exact ⟨e, he, .inl rfl⟩
  | peripheral p => cases he

/-- A write to the registers of a further DOE (R224). -/
theorem rescheduled_of_further {s : State} {q : Poller} {j : Nat} {d d' e : DoeUnit} (hd : s.further[j]? = some d)
    (hPending : d'.pending = d.pending ∨ d'.pending = some (s.now + 1000))
    (he : ({ s with further := s.further.set j d' } : State).unit q = some e) : Rescheduled s q e := by
  cases q with
  | doe => cases he; exact ⟨_, rfl, .inl rfl⟩
  | peripheral p => cases he
  | furtherDoe i =>
    rw [State.unit_furtherDoe] at he
    by_cases hij : i = j
    · subst hij
      obtain ⟨hLength, -⟩ := List.getElem?_eq_some_iff.mp hd
      rw [List.getElem?_set_self hLength] at he
      cases he
      exact ⟨d, hd, hPending⟩
    · rw [List.getElem?_set_ne (Ne.symm hij)] at he
      exact ⟨e, he, .inl rfl⟩

/-- A WRITE leaves each DOE's slot, or schedules its action DOE_LATENCY ahead (R174, R224). -/
theorem busWrite_rescheduled {size : AccessSize} {addr v : Word} {s t : State} (h : busWrite size addr v s = .next t)
    {q : Poller} {e : DoeUnit} (he : t.unit q = some e) : Rescheduled s q e := by
  obtain ⟨-, ⟨f, -, rfl⟩ | ⟨r, -, rfl⟩⟩ := busWrite_next h
  · exact ⟨e, he, .inl rfl⟩
  · change (writeHandler s r (addr.toNat - r.base) v).unit q = some e at he
    rcases writeHandler_cases s r (addr.toNat - r.base) v with
      ⟨k, e'⟩ | ⟨-, e'⟩ | ⟨-, e'⟩ | (e' | ⟨j, d, d', hd, hPending, e'⟩) | ⟨p, x, e'⟩ <;> rw [e'] at he
    · exact rescheduled_of_doe he rfl (.inl rfl)
    · exact rescheduled_of_doe he rfl (.inl rfl)
    · exact rescheduled_of_doe he rfl (.inr rfl)
    · exact ⟨e, he, .inl rfl⟩
    · exact rescheduled_of_further hd hPending he
    · exact rescheduled_of_doe he rfl (.inl rfl)

/-- WRITE keeps the invariant: what it schedules lies ahead, and it sets no mark (R174). -/
theorem UnitInv.busWrite {size : AccessSize} {addr v : Word} {s t : State} (h : UnitInv s)
    (hExec : busWrite size addr v s = .next t) : UnitInv t := by
  obtain ⟨hl, -⟩ := busWrite_next hExec
  obtain ⟨hFrame, hFurther, hPeripherals⟩ := busWrite_frame hExec
  have hNow : t.now = s.now := by rw [hFrame]
  have hCfg : t.cfg = s.cfg := by rw [hFrame]
  have hLive : t.fatal = none := by rw [hFrame]; exact hl
  have hKv : t.kv = s.kv := by rw [hFrame]
  refine ⟨?_, ?_, ?_, fun q e a he ha => ?_, fun _ q hq e a he ha => ?_, fun c hc => ?_⟩
  · rw [hCfg, hPeripherals]
    exact h.cfgWf
  · rw [hKv]
    exact h.slots
  · rw [hFurther, hCfg]
    exact h.furtherCount
  · rw [hNow]
    obtain ⟨d, hd, hSame | hNew⟩ := busWrite_rescheduled hExec he
    · exact h.pendingBound q d a hd (hSame ▸ ha)
    · rw [hNew] at ha
      cases ha
      exact Nat.le_refl _
  · rw [hNow]
    obtain ⟨d, hd, hSame | hNew⟩ := busWrite_rescheduled hExec he
    · exact h.quiet hl q (hCfg ▸ hq) d a hd (hSame ▸ ha)
    · rw [hNew] at ha
      cases ha
      omega
  · rw [hLive] at hc
    cases hc

/-- Settles O53: the invariant is kept by each of the three operations, and the idle step changes nothing. -/
theorem stepKeepsInvariant : Obligations.StepKeepsInvariant := by
  intro s t hInv h
  have hUnit := machineInv_iff.mp hInv
  refine machineInv_iff.mpr ?_
  obtain ⟨-, ⟨-, rfl⟩ | ⟨r, rest, -, hExec⟩⟩ := step_next h
  · exact hUnit
  · have hTaken : UnitInv { s with requests := rest } := hUnit.with_driver rest s.response
    obtain ⟨size, addr, hExec⟩ | ⟨size, addr, v, hExec⟩ | ⟨n, hExec⟩ := hExec
    · rw [busRead_frame hExec]
      exact hTaken.with_driver rest t.response
    · exact hTaken.busWrite hExec
    · exact hTaken.execAdvance hExec

/-! ## Construction -/

/-- What well-formed parameters say (R8, R52). -/
theorem params_wf_iff {p : Params} : p.wf = true ↔ 1 ≤ p.kv0.length ∧ p.cfg.wf p.peripherals0.length = true := by
  simp [Params.wf]

/-- Every DOE is constructed with nothing pending (R33, R224, R240). -/
theorem unit_built {p : Params} {q : Poller} {d : DoeUnit} (h : (State.built p).unit q = some d) : d = builtDoe := by
  cases q with
  | doe => cases h; rfl
  | peripheral i => cases h
  | furtherDoe j =>
    have hMap : (p.cfg.furtherBases.map fun _ => builtDoe)[j]? = some d := h
    rw [List.getElem?_map, Option.map_eq_some_iff] at hMap
    obtain ⟨-, -, rfl⟩ := hMap
    rfl

/-- Construction from well-formed parameters meets the invariant (R240). -/
theorem machineInv_built {p : Params} (h : p.wf = true) : MachineInv (.built p) := by
  obtain ⟨hSlots, hCfg⟩ := params_wf_iff.mp h
  refine machineInv_iff.mpr ⟨hCfg, hSlots, List.length_map _, fun q d t hd ht => ?_, fun _ q _ d t hd ht => ?_,
    fun c hc => by cases hc⟩
  · rw [unit_built hd] at ht
    cases ht
  · rw [unit_built hd] at ht
    cases ht

/-- Settles O54: reset is the construction from the default parameters, which are well-formed. -/
theorem constructionMeetsInvariant : Obligations.ConstructionMeetsInvariant :=
  ⟨fun _ => machineInv_built, machineInv_built (p := .default) (by decide)⟩

/-- A construction that succeeds leaves `State.built` (R240, R241). -/
theorem construct_eq_ok {p : Params} {s : State} (h : State.construct p = .ok s) : s = .built p := by
  unfold State.construct at h
  split at h <;> cases h
  rfl

/-- Settles O55. -/
theorem constructionLeavesResetValues : Obligations.ConstructionLeavesResetValues := by
  refine ⟨fun p s h => ?_, fun p hOverlap => if_neg ?_⟩
  · obtain rfl := construct_eq_ok h
    have hIdle : doeStateOf none 0 = .idle := by decide
    exact ⟨rfl, rfl, rfl, rfl, rfl, rfl, rfl, rfl, rfl, rfl, hIdle, rfl⟩
  · rw [params_wf_iff]
    rintro ⟨-, hCfg⟩
    simp only [Config.wf, Bool.and_eq_true] at hCfg
    obtain ⟨⟨⟨-, hDisjoint⟩, -⟩, -⟩ := hCfg
    rw [hOverlap] at hDisjoint
    cases hDisjoint

end Sys2Proof.Machine
end

section
/-! PROOFS. Noninterference: with only DOEs on the bus and a cipher that does not fail, no outcome of a step depends on the
secrets or on the vault's contents (R188, R221, R224). -/

namespace Sys2Proof.Machine

/-! ## States that differ in what the bus hides -/

/-- The machine with other secrets and another vault. -/
def State.withHidden (s : State) (kv : List KeySlot) (uds : Bytes 48) (fe : Bytes 64) (doekey : Bytes 32) : State :=
  { s with kv := kv, uds := uds, fe := fe, doekey := doekey }

/-- Two states that the bus cannot tell apart are one state with two secret stores and two vaults of one size. -/
theorem SameOnBus.exists_hidden {s t : State} (h : SameOnBus s t) :
    ∃ kv uds fe doekey, kv.length = t.kv.length ∧ s = t.withHidden kv uds fe doekey :=
  ⟨s.kv, s.uds, s.fe, s.doekey, h⟩

/-- The response does not tell more than it says. -/
theorem SameOnBus.respond {s t : State} (h : SameOnBus s t) (r : Response) : SameOnBus (s.respond r) (t.respond r) := by
  obtain ⟨kv, uds, fe, doekey, hKv, rfl⟩ := h.exists_hidden
  exact ⟨hKv, rfl⟩

/-- Both states hold the same mark. -/
theorem SameOnBus.fatal_eq {s t : State} (h : SameOnBus s t) : s.fatal = t.fatal := by
  obtain ⟨kv, uds, fe, doekey, -, rfl⟩ := h.exists_hidden
  rfl

/-- Both states hold the same configuration. -/
theorem SameOnBus.cfg_eq {s t : State} (h : SameOnBus s t) : s.cfg = t.cfg := by
  obtain ⟨kv, uds, fe, doekey, -, rfl⟩ := h.exists_hidden
  rfl

/-! ## A further DOE's operations -/

/-- An operation that does not tell two states apart does not do so on a further DOE's registers either (R224). -/
theorem SameOnBus.atFurther {s t : State} (h : SameOnBus s t) (j : Nat) {f : State → State}
    (hf : ∀ d, SameOnBus (f (s.withDoe d)) (f (t.withDoe d))) : SameOnBus (atFurther j f s) (atFurther j f t) := by
  obtain ⟨kv, uds, fe, doekey, hKv, rfl⟩ := h.exists_hidden
  cases hd : t.further[j]? with
  | none =>
    rw [atFurther_none hd, atFurther_none (by exact hd)]
    exact ⟨hKv, rfl⟩
  | some d =>
    obtain ⟨kv', uds', fe', doekey', hKv', e⟩ := (hf d).exists_hidden
    rw [atFurther_some hd rfl, atFurther_some (by exact hd) e]
    exact ⟨hKv', rfl⟩

/-! ## READ and WRITE -/

/-- With no other peripheral on the bus every region is a DOE's (R120, R224). -/
theorem handler_ne_peripheral {cfg : Config} (h : cfg.otherRegions = []) {r : Region} (hr : r ∈ regionTable cfg)
    (p i : Nat) : r.handler ≠ .peripheral p i := by
  simp only [regionTable, h, List.append_nil, List.mem_append, mem_furtherRegions] at hr
  rcases hr with hr | ⟨j, b, -, hr⟩ <;>
    simp only [doeRegions, doeRegionsAt, List.mem_cons, List.not_mem_nil, or_false] at hr <;>
    obtain rfl | rfl := hr <;> nofun

/-- A check that passed answers a region of the table (R121). -/
theorem mem_regionTable_of_check {cfg : Config} {op : AccessKind} {size : AccessSize} {addr : Word} {r : Region}
    (h : check cfg op size addr = .ok r) : r ∈ regionTable cfg := by
  obtain ⟨hOwner, -⟩ := check_ok h
  exact (owner_some hOwner).1

/-- The machine as a further DOE sees it (R224). -/
theorem SameOnBus.focus {s t : State} (h : SameOnBus s t) (j : Nat) : SameOnBus (s.focus j) (t.focus j) := by
  obtain ⟨kv, uds, fe, doekey, hKv, rfl⟩ := h.exists_hidden
  cases hd : t.further[j]? with
  | some d =>
    rw [State.focus_eq hd, State.focus_eq (s := t.withHidden kv uds fe doekey) hd]
    exact ⟨hKv, rfl⟩
  | none =>
    have hFocus : ∀ {u : State}, u.further[j]? = none → u.focus j = u := fun hu => by simp [State.focus, hu]
    rwa [hFocus hd, hFocus (u := t.withHidden kv uds fe doekey) hd]

/-- READ.IV returns the same word (R171). -/
theorem SameOnBus.doeReadIv_eq {s t : State} (h : SameOnBus s t) (k : BitVec 2) : doeReadIv s k = doeReadIv t k := by
  obtain ⟨kv, uds, fe, doekey, -, rfl⟩ := h.exists_hidden
  rfl

/-- READ.CONTROL returns the same word (R173). -/
theorem SameOnBus.doeReadControl_eq {s t : State} (h : SameOnBus s t) : doeReadControl s = doeReadControl t := by
  obtain ⟨kv, uds, fe, doekey, -, rfl⟩ := h.exists_hidden
  rfl

/-- A DOE's read handler does not look at the secrets or the vault (R171, R173). -/
theorem SameOnBus.readHandler_eq {s t : State} (h : SameOnBus s t) {r : Region}
    (hr : ∀ p i, r.handler ≠ .peripheral p i) (off : Nat) : readHandler s r off = readHandler t r off := by
  unfold readHandler
  split
  · exact h.doeReadIv_eq _
  · exact h.doeReadControl_eq
  · exact (h.focus _).doeReadIv_eq _
  · exact (h.focus _).doeReadControl_eq
  · rename_i p i hHandler
    exact absurd hHandler (hr p i)

/-- WRITE.IV does not tell two states apart (R172). -/
theorem SameOnBus.doeWriteIv {s t : State} (h : SameOnBus s t) (k : BitVec 2) (v : Word) :
    SameOnBus (doeWriteIv s k v) (doeWriteIv t k v) := by
  obtain ⟨kv, uds, fe, doekey, hKv, rfl⟩ := h.exists_hidden
  simp only [Machine.doeWriteIv, State.withHidden]
  generalize setIvWord t.cfg.ivByteOrder t.iv k v = iv
  exact ⟨hKv, rfl⟩

/-- WRITE.CONTROL does not tell two states apart (R174). -/
theorem SameOnBus.doeWriteControl {s t : State} (h : SameOnBus s t) (v : Word) :
    SameOnBus (doeWriteControl s v) (doeWriteControl t v) := by
  obtain ⟨kv, uds, fe, doekey, hKv, rfl⟩ := h.exists_hidden
  rw [doeWriteControl_eq, doeWriteControl_eq]
  split <;> exact ⟨hKv, rfl⟩

/-- The registers of one further DOE in the DOE's place (R224). -/
theorem SameOnBus.withDoe {s t : State} (h : SameOnBus s t) (d : DoeUnit) : SameOnBus (s.withDoe d) (t.withDoe d) := by
  obtain ⟨kv, uds, fe, doekey, hKv, rfl⟩ := h.exists_hidden
  exact ⟨hKv, rfl⟩

/-- A DOE's write handler does not tell two states apart (R172, R174, R224). -/
theorem SameOnBus.writeHandler {s t : State} (h : SameOnBus s t) {r : Region} (hr : ∀ p i, r.handler ≠ .peripheral p i)
    (off : Nat) (v : Word) : SameOnBus (writeHandler s r off v) (writeHandler t r off v) := by
  unfold Machine.writeHandler
  split
  · exact h.doeWriteIv ..
  · exact h.doeWriteControl v
  · exact h.atFurther _ fun d => (h.withDoe d).doeWriteIv ..
  · exact h.atFurther _ fun d => (h.withDoe d).doeWriteControl v
  · rename_i p i hHandler
    exact absurd hHandler (hr p i)

/-- READ answers two such states alike (R129). -/
theorem SameOnBus.busRead {s t : State} (h : SameOnBus s t) (hRegions : s.cfg.otherRegions = []) (hl : s.fatal = none)
    (size : AccessSize) (addr : Word) : SameOutcome (busRead size addr s) (busRead size addr t) := by
  have hl' : t.fatal = none := h.fatal_eq ▸ hl
  cases hCheck : check s.cfg .read size addr with
  | error f =>
    rw [busRead_of_check_error hl hCheck, busRead_of_check_error hl' (h.cfg_eq ▸ hCheck)]
    exact h.respond _
  | ok r =>
    have hr := handler_ne_peripheral hRegions (mem_regionTable_of_check hCheck)
    rw [busRead_of_check_ok hl hCheck, busRead_of_check_ok hl' (h.cfg_eq ▸ hCheck), h.readHandler_eq hr]
    exact h.respond _

/-- WRITE answers two such states alike (R130). -/
theorem SameOnBus.busWrite {s t : State} (h : SameOnBus s t) (hRegions : s.cfg.otherRegions = []) (hl : s.fatal = none)
    (size : AccessSize) (addr v : Word) : SameOutcome (busWrite size addr v s) (busWrite size addr v t) := by
  have hl' : t.fatal = none := h.fatal_eq ▸ hl
  cases hCheck : check s.cfg .write size addr with
  | error f =>
    rw [busWrite_of_check_error hl hCheck, busWrite_of_check_error hl' (h.cfg_eq ▸ hCheck)]
    exact h.respond _
  | ok r =>
    have hr := handler_ne_peripheral hRegions (mem_regionTable_of_check hCheck)
    rw [busWrite_of_check_ok hl hCheck, busWrite_of_check_ok hl' (h.cfg_eq ▸ hCheck)]
    exact (h.writeHandler hr _ v).respond _

/-! ## Polls -/

/-- Delivering two plaintexts to one slot does not tell two states apart: the vault's size decides alone (R186, R188). -/
theorem SameOnBus.deliver {s t : State} (h : SameOnBus s t) (dest : Nat) (b c : KeySlot) :
    SameOnBus (deliver s dest (some b)) (deliver t dest (some c)) := by
  obtain ⟨kv, uds, fe, doekey, hKv, rfl⟩ := h.exists_hidden
  have hSlots : (t.withHidden kv uds fe doekey).kvSlots = t.kvSlots := hKv
  unfold Machine.deliver
  rw [hSlots]
  split
  · exact ⟨by simpa [State.withHidden] using hKv, rfl⟩
  · exact ⟨hKv, rfl⟩

/-- With a cipher that does not fail every command leaves two such states alike (R179 to R182). -/
theorem SameOnBus.perform {s t : State} (h : SameOnBus s t) (hCipher : s.cfg.cipherFailures = []) (c : Cmd)
    (dest : Nat) : SameOnBus (perform c dest s) (perform c dest t) := by
  have hCipher' : t.cfg.cipherFailures = [] := h.cfg_eq ▸ hCipher
  cases c with
  | idle => exact h
  | clearSecrets =>
    obtain ⟨kv, uds, fe, doekey, hKv, rfl⟩ := h.exists_hidden
    exact ⟨hKv, rfl⟩
  | deobfuscateUds =>
    unfold Machine.perform doUds
    rw [udsSlot_some (s := s) (by simp [hCipher]), udsSlot_some (s := t) (by simp [hCipher'])]
    exact h.deliver ..
  | deobfuscateFe =>
    unfold Machine.perform doFe
    rw [feSlot_some (s := s) (by simp [hCipher]), feSlot_some (s := t) (by simp [hCipher'])]
    exact h.deliver ..

/-- Completing a fire does not tell two states apart (R183). -/
theorem SameOnBus.completeFire {s t : State} (h : SameOnBus s t) : SameOnBus (completeFire s) (completeFire t) := by
  cases hFatal : s.fatal with
  | some c => rwa [completeFire_stuck hFatal, completeFire_stuck (h.fatal_eq ▸ hFatal)]
  | none =>
    rw [completeFire_live hFatal, completeFire_live (h.fatal_eq ▸ hFatal)]
    obtain ⟨kv, uds, fe, doekey, hKv, rfl⟩ := h.exists_hidden
    exact ⟨hKv, rfl⟩

/-- A fire does not tell two states apart: CONTROL decides what it does (R177, R178). -/
theorem SameOnBus.fire {s t : State} (h : SameOnBus s t) (hCipher : s.cfg.cipherFailures = []) :
    SameOnBus (fire s) (fire t) := by
  have hControl : s.control = t.control := h.doeReadControl_eq
  rw [fire_eq, fire_eq, hControl]
  exact (h.perform hCipher _ _).completeFire

/-- A DOE's poll does not tell two states apart: the timer decides whether it fires (R177). -/
theorem SameOnBus.doePoll {s t : State} (h : SameOnBus s t) (hCipher : s.cfg.cipherFailures = []) :
    SameOnBus (doePoll s) (doePoll t) := by
  obtain ⟨kv, uds, fe, doekey, hKv, rfl⟩ := h.exists_hidden
  rcases doePoll_cases t with ⟨e, hLater⟩ | ⟨a, hPending, hDue, e⟩ <;> rw [e]
  · rwa [doePoll_quiet (by exact hLater)]
  · rw [doePoll_due (s := t.withHidden kv uds fe doekey) hPending hDue]
    exact SameOnBus.fire ⟨hKv, rfl⟩ hCipher

/-- The poll of any DOE does not tell two states apart (R177, R224). -/
theorem SameOnBus.poll {s t : State} (h : SameOnBus s t) (hCipher : s.cfg.cipherFailures = []) {p : Poller}
    (hp : ∀ i, p ≠ .peripheral i) : SameOnBus (poll p s) (poll p t) := by
  cases p with
  | doe => exact h.doePoll hCipher
  | furtherDoe j => exact h.atFurther j fun d => (h.withDoe d).doePoll hCipher
  | peripheral i => exact absurd rfl (hp i)

/-- The fan-out over DOEs does not tell two states apart, and it stops at the same poll (R101). -/
theorem SameOnBus.pollAll : ∀ {ps : List Poller} {s t : State}, SameOnBus s t → s.cfg.cipherFailures = [] →
    (∀ i, Poller.peripheral i ∉ ps) → s.fatal = none → SameOnBus (pollAll ps s) (pollAll ps t)
  | [], _, _, h, _, _, _ => h
  | p :: ps, s, t, h, hCipher, hps, hl => by
    have hPoll := h.poll hCipher (p := p) fun i e => hps i (e ▸ List.mem_cons_self ..)
    cases hFatal : (Machine.poll p s).fatal with
    | some c => rwa [pollAll_cons_stuck ps hFatal, pollAll_cons_stuck ps (hPoll.fatal_eq ▸ hFatal)]
    | none =>
      rw [pollAll_cons_live ps hFatal, pollAll_cons_live ps (hPoll.fatal_eq ▸ hFatal)]
      have hCfg := (poll_polled p hl).cfg
      exact hPoll.pollAll (hCfg ▸ hCipher) (fun i hi => hps i (List.mem_cons_of_mem _ hi)) hFatal

/-- ADVANCE answers two such states alike (R101). -/
theorem SameOnBus.execAdvance {s t : State} (h : SameOnBus s t) (hOnly : OnlyDoes s.cfg) (hl : s.fatal = none) (n : Nat) :
    SameOutcome (execAdvance n s) (execAdvance n t) := by
  obtain ⟨-, hOrder, hCipher⟩ := hOnly
  rw [Machine.execAdvance, Machine.execAdvance, ifLive_live hl, ifLive_live (h.fatal_eq ▸ hl)]
  have hMoved : SameOnBus { s with now := s.now + n } { t with now := t.now + n } := by
    obtain ⟨kv, uds, fe, doekey, hKv, rfl⟩ := h.exists_hidden
    exact ⟨hKv, rfl⟩
  have hAll : SameOnBus (advanced n s) (advanced n t) := by
    have hOrderEq : t.cfg.pollOrder = s.cfg.pollOrder := congrArg Config.pollOrder h.cfg_eq.symm
    rw [advanced, advanced, hOrderEq]
    exact hMoved.pollAll hCipher hOrder hl
  have hResponse : advanceResponse (advanced n s) = advanceResponse (advanced n t) := by
    rw [advanceResponse, hAll.fatal_eq]
    rfl
  rw [hResponse]
  exact hAll.respond _

/-! ## The step -/

/-- Every operation answers two such states alike. -/
theorem SameOnBus.execOperation {s t : State} (h : SameOnBus s t) (hOnly : OnlyDoes s.cfg) (hl : s.fatal = none)
    (op : Operation) : SameOutcome (execOperation op s) (execOperation op t) := by
  have ⟨hRegions, _, _⟩ := hOnly
  cases op with
  | read size off =>
    unfold Machine.execOperation
    rw [← h.cfg_eq]
    exact h.busRead hRegions hl size _
  | write size off v =>
    unfold Machine.execOperation
    rw [← h.cfg_eq]
    exact h.busWrite hRegions hl size _ v
  | advance n => exact h.execAdvance hOnly hl n

/-- Settles O56: both states serve the same request, or are stuck with the same mark. -/
theorem busCannotObserveSecrets : Obligations.BusCannotObserveSecrets := by
  intro s t hOnly h
  have hFatalEq := h.fatal_eq
  have hRequestsEq : s.requests = t.requests := by
    obtain ⟨kv, uds, fe, doekey, -, rfl⟩ := h.exists_hidden
    rfl
  cases hl : s.fatal with
  | some c =>
    rw [step, step, serveNext, serveNext, ifLive_stuck hl, ifLive_stuck (hFatalEq ▸ hl)]
    rfl
  | none =>
    cases hr : s.requests with
    | nil =>
      rw [step_of_no_request hl hr, step_of_no_request (hFatalEq ▸ hl) (hRequestsEq ▸ hr)]
      exact h
    | cons r rest =>
      rw [step_of_requests hl hr, step_of_requests (hFatalEq ▸ hl) (hRequestsEq ▸ hr)]
      have hTaken : SameOnBus { s with requests := rest } { t with requests := rest } := by
        obtain ⟨kv, uds, fe, doekey, hKv, rfl⟩ := h.exists_hidden
        exact ⟨hKv, rfl⟩
      cases r with
      | fetch addr => rfl
      | transaction key payload =>
        cases hParse : parse key payload with
        | rejected why =>
          rw [serve_of_parse_rejected hParse, serve_of_parse_rejected hParse]
          rfl
        | operation op =>
          rw [serve_of_parse hParse, serve_of_parse hParse]
          exact hTaken.execOperation hOnly hl op

end Sys2Proof.Machine
end

section
/-! PROOFS. Bus accesses: the rows that read and write the DOE's registers (R171 to R175), the order of the checks (R121), a
repeated WRITE (R65), regions by access mask (R54), other peripherals (R134) and further DOEs (R224). -/

namespace Sys2Proof.Machine

/-! ## The DOE's rows -/

/-- READ.IV on a live, well-formed machine (R171). -/
theorem exec_readIv_live {s : State} (hw : s.cfg.wf s.peripherals.length = true) (hl : s.fatal = none) (k : BitVec 2) :
    exec (.readIv k) s = .next { s with response := some (.value (doeReadIv s k)) } := by
  refine (busRead_of_check_ok hl (check_iv hw .read k)).trans ?_
  simp only [readHandler, ivIndex_addr hw]

/-- READ.CONTROL on a live, well-formed machine (R173). -/
theorem exec_readControl_live {s : State} (hw : s.cfg.wf s.peripherals.length = true) (hl : s.fatal = none) :
    exec .readControl s = .next { s with response := some (.value s.control) } :=
  busRead_of_check_ok hl (check_control hw .read)

/-- WRITE.IV on a live, well-formed machine (R172). -/
theorem exec_writeIv_live {s : State} (hw : s.cfg.wf s.peripherals.length = true) (hl : s.fatal = none) (k : BitVec 2)
    (v : Word) : exec (.writeIv k v) s =
      .next { s with iv := setIvWord s.cfg.ivByteOrder s.iv k v, response := some .done } := by
  refine (busWrite_of_check_ok hl (check_iv hw .write k) v).trans ?_
  simp only [writeHandler, ivIndex_addr hw, doeWriteIv, State.respond]

/-- WRITE.CONTROL on a live, well-formed machine (R174). -/
theorem exec_writeControl_live {s : State} (hw : s.cfg.wf s.peripherals.length = true) (hl : s.fatal = none) (v : Word) :
    exec (.writeControl v) s = .next ((doeWriteControl s v).respond .done) :=
  busWrite_of_check_ok hl (check_control hw .write) v

/-- Settles O9. -/
theorem readIvReturnsStoredWord : Obligations.ReadIvReturnsStoredWord := by
  intro s k hw hl
  rw [exec_readIv_live hw hl]
  rfl

/-- Settles O10. -/
theorem readControlReturnsControl : Obligations.ReadControlReturnsControl := fun _ hw hl => exec_readControl_live hw hl

/-- Settles O11. -/
theorem writeIvReplacesOneWord : Obligations.WriteIvReplacesOneWord := by
  intro s k v hw hl
  refine ⟨setIvWord s.cfg.ivByteOrder s.iv k v, exec_writeIv_live hw hl k v, fun i h => ?_⟩
  rw [setIvWord_getElem _ _ _ _ i h]
  rfl

/-- Settles O12. -/
theorem writeControlAcceptsCommand : Obligations.WriteControlAcceptsCommand := by
  intro s v hw hl hv
  rw [exec_writeControl_live hw hl, doeWriteControl_eq, if_neg hv]
  rfl

/-- Settles O13. -/
theorem writeControlIdleOnlyStores : Obligations.WriteControlIdleOnlyStores := by
  intro s v hw hl hv
  rw [exec_writeControl_live hw hl, doeWriteControl_eq, if_pos hv]
  rfl

/-! ## IV words and repeated writes -/

/-- Settles O37. -/
theorem ivWordsReadBackAndStayApart : Obligations.IvWordsReadBackAndStayApart := by
  intro o iv k l w
  by_cases h : l = k
  · rw [if_pos h, h, ivWord_setIvWord_same]
  · rw [if_neg h, ivWord_setIvWord_other o iv (Ne.symm h)]

/-- Writing one IV word twice is writing it once (R65). -/
theorem setIvWord_setIvWord (o : ByteOrder) (iv : Bytes 16) (k : BitVec 2) (w : Word) :
    setIvWord o (setIvWord o iv k w) k w = setIvWord o iv k w := by
  apply Vector.ext
  intro i hi
  simp only [setIvWord_getElem]
  split <;> rfl

/-- Settles O38: the second write of an IV word stores what is there, and a second CONTROL word schedules for the same time. -/
theorem repeatedWriteLeavesSameState : Obligations.RepeatedWriteLeavesSameState := by
  refine fun s t k v hw => ⟨fun h => ?_, fun h => ?_⟩
  · obtain ⟨hl, -⟩ := exec_writeIv_next hw h
    rw [exec_writeIv_live hw hl] at h
    cases h
    rw [exec_writeIv_live (by exact hw) (by exact hl), setIvWord_setIvWord]
  · obtain ⟨hl, -⟩ := exec_writeControl_next hw h
    by_cases hv : v.extractLsb' 0 2 = 0
    · obtain rfl := exec_writeControl_idle hw hv h
      exact writeControlIdleOnlyStores _ v (by exact hw) (by exact hl) hv
    · obtain rfl := exec_writeControl_accept hw hv h
      exact writeControlAcceptsCommand _ v (by exact hw) (by exact hl) hv

/-! ## The order of the checks -/

/-- Settles O33: the nested cases are the branches of the pipeline, in its order. -/
theorem firstFailingCheckIsReported : Obligations.FirstFailingCheckIsReported := by
  refine fun cfg op size addr => ⟨fun h => check_unowned h op size, fun r hOwner => ⟨fun hSize => ?_, fun n hSize =>
    ⟨fun hMisaligned => ?_, fun hAligned => ⟨fun hGran => ?_, fun hGran => ⟨fun hPast => ?_, fun hEnd => ?_⟩⟩⟩⟩⟩ <;>
    simp only [check, hOwner, hSize]
  · rw [if_pos hMisaligned]
  · rw [if_neg (by omega), if_pos hGran]
  · rw [if_neg (by omega), if_neg (by omega), if_pos hPast]
  · rw [if_neg (by omega), if_neg (by omega), if_neg (by omega)]

/-! ## Regions by access mask -/

/-- Clearing the low e bits of an address (R54). -/
theorem and_not_mask_toNat (a : Word) (e : Nat) (he : e ≤ 32) :
    (a &&& ~~~BitVec.ofNat 32 (2 ^ e - 1)).toNat = a.toNat / 2 ^ e * 2 ^ e := by
  have hShift : a &&& ~~~BitVec.ofNat 32 (2 ^ e - 1) = (a >>> e) <<< e := by
    apply BitVec.eq_of_getLsbD_eq
    intro i hi
    simp only [BitVec.getLsbD_and, BitVec.getLsbD_not, getLsbD_ones he, BitVec.getLsbD_shiftLeft,
      BitVec.getLsbD_ushiftRight]
    by_cases hLow : i < e
    · simp [hLow]
    · simp [hLow, hi, show e + (i - e) = i by omega]
  have hLe := Nat.div_mul_le_self a.toNat (2 ^ e)
  have ha := a.isLt
  rw [hShift, BitVec.toNat_shiftLeft, BitVec.toNat_ushiftRight, Nat.shiftRight_eq_div_pow, Nat.shiftLeft_eq,
    Nat.mod_eq_of_lt (by omega)]

/-- Settles O39: both sides say that the region's base is the multiple of its length just below the address. -/
theorem accessMaskNamesOffsetBits : Obligations.AccessMaskNamesOffsetBits := by
  intro r e a hLen he hBase hEnd
  have hPos : 0 < r.len := by rw [hLen]; exact Nat.two_pow_pos e
  rw [← BitVec.toNat_inj, accessMask, hLen, and_not_mask_toNat a e he, BitVec.toNat_ofNat,
    Nat.mod_eq_of_lt (by omega), ← hLen]
  simp only [owns, Bool.and_eq_true, decide_eq_true_eq]
  obtain ⟨q, hq⟩ := Nat.dvd_of_mod_eq_zero hBase
  have hSplit := Nat.div_add_mod' a.toNat r.len
  have hRest := Nat.mod_lt a.toNat hPos
  constructor
  · rintro ⟨hLow, hHigh⟩
    rw [hq, Nat.mul_comm] at hLow hHigh ⊢
    rw [Nat.div_eq_of_lt_le hLow (by rwa [Nat.add_one_mul])]
  · intro h
    omega

/-! ## Other peripherals -/

/-- Every list is itself with some element set. -/
theorem exists_eq_set (l : List Nat) (p : Nat) : ∃ x, l = l.set p x := by
  by_cases h : p < l.length
  · exact ⟨l[p], (List.set_getElem_self h).symm⟩
  · exact ⟨0, (List.set_eq_of_length_le (Nat.not_lt.mp h)).symm⟩

/-- Settles O51. -/
theorem otherPeripheralsStayApart : Obligations.OtherPeripheralsStayApart := by
  refine ⟨fun p s => ⟨_, rfl⟩, fun s t size addr v r p j hOwner hHandler h => ?_⟩
  obtain ⟨-, ⟨f, -, rfl⟩ | ⟨q, hCheck, rfl⟩⟩ := busWrite_next h
  · obtain ⟨x, hx⟩ := exists_eq_set s.peripherals p
    exact ⟨x, by rw [← hx]; rfl⟩
  · obtain rfl : r = q := Option.some.inj (hOwner.symm.trans (check_ok hCheck).1)
    rw [writeHandler, hHandler]
    exact ⟨_, rfl⟩

/-! ## Further DOEs -/

/-- The address of an offset inside a further DOE's map does not wrap (R66, R224). -/
theorem further_addr_toNat {n : Nat} {cfg : Config} (hw : cfg.wf n = true) {j : Nat} {b off : Word}
    (hb : cfg.furtherBases[j]? = some b) (ho : off.toNat < 0x14) : (b + off).toNat = b.toNat + off.toNat := by
  have hEnd := (wf_furtherBase hw hb).2
  rw [BitVec.toNat_add]
  omega

/-- The word access at IV word k of a further DOE passes (R53, R224). -/
theorem check_furtherIv {n : Nat} {cfg : Config} (hw : cfg.wf n = true) {j : Nat} {b : Word}
    (hb : cfg.furtherBases[j]? = some b) (op : AccessKind) (k : BitVec 2) :
    check cfg op .word (b + ivOffset k) = .ok { base := b.toNat, len := 0x10, gran := 4, handler := .furtherIv j } := by
  have hk := k.isLt
  have ho := ivOffset_toNat k
  have ha := further_addr_toNat hw hb (off := ivOffset k) (by omega)
  have hBase := wf_furtherBase hw hb
  refine check_eq_ok_iff.mpr ⟨owner_of_owns hw (further_mem_regionTable hb (by simp [doeRegionsAt])) ?_, rfl, ?_, ?_⟩
  · simp only [owns, Bool.and_eq_true, decide_eq_true_eq]
    omega
  · simp only
    omega
  · simp only
    omega

/-- The word access at CONTROL of a further DOE passes (R53, R224). -/
theorem check_furtherControl {n : Nat} {cfg : Config} (hw : cfg.wf n = true) {j : Nat} {b : Word}
    (hb : cfg.furtherBases[j]? = some b) (op : AccessKind) :
    check cfg op .word (b + controlOffset) =
      .ok { base := b.toNat + 0x10, len := 4, gran := 4, handler := .furtherControl j } := by
  have ho : controlOffset.toNat = 0x10 := rfl
  have ha := further_addr_toNat hw hb (off := controlOffset) (by omega)
  have hBase := wf_furtherBase hw hb
  refine check_eq_ok_iff.mpr ⟨owner_of_owns hw (further_mem_regionTable hb (by simp [doeRegionsAt])) ?_, rfl, ?_, ?_⟩
  · simp only [owns, Bool.and_eq_true, decide_eq_true_eq]
    omega
  · simp only
    omega
  · simp only
    omega

/-- The offset of IV word k inside a further DOE's region names word k again. -/
theorem ivIndex_further_addr {n : Nat} {cfg : Config} (hw : cfg.wf n = true) {j : Nat} {b : Word}
    (hb : cfg.furtherBases[j]? = some b) (k : BitVec 2) : ivIndex ((b + ivOffset k).toNat - b.toNat) = k := by
  have hk := k.isLt
  have ho := ivOffset_toNat k
  have ha := further_addr_toNat hw hb (off := ivOffset k) (by omega)
  apply BitVec.eq_of_toNat_eq
  rw [ivIndex_toNat (by omega)]
  omega

/-- Settles O59: each access passes its checks, and the handler works on DOE j's registers. -/
theorem furtherDoeRegistersAreItsOwn : Obligations.FurtherDoeRegistersAreItsOwn := by
  intro s j b d k v hw hl hb hd
  have hIv := check_furtherIv hw hb
  have hControl := check_furtherControl hw hb
  have hWrite := busWrite_of_check_ok hl (hControl .write) v
  simp only [writeHandler] at hWrite
  refine ⟨?_, ?_, ?_, fun hv => ?_, fun hv => ?_⟩
  · rw [busRead_of_check_ok hl (hIv .read k)]
    simp only [readHandler, ivIndex_further_addr hw hb, State.focus_eq hd]
    rfl
  · rw [busRead_of_check_ok hl (hControl .read)]
    simp only [readHandler, State.focus_eq hd]
    rfl
  · rw [busWrite_of_check_ok hl (hIv .write k)]
    simp only [writeHandler, ivIndex_further_addr hw hb, atFurther_doeWriteIv hd]
    rfl
  · rw [hWrite, atFurther_some hd (doeWriteControl_eq _ _), if_neg hv]
    rfl
  · rw [hWrite, atFurther_some hd (doeWriteControl_eq _ _), if_pos hv]
    rfl

end Sys2Proof.Machine
end

section
/-! PROOFS. The register file: FieldSet bit by bit (R154), and Modify in any order (R158). -/

namespace Sys2Proof.Machine

variable {M : Type}

/-! ## FieldSet -/

/-- FieldSet rejects a value that is too wide (R154, D23). -/
theorem fieldSet_of_ge (raw : Word) {f : RegField M} {v : Nat} (hv : 2 ^ f.width ≤ v) : fieldSet raw f v = none :=
  if_pos hv

/-- Bit i of the word after FieldSet: the value's bit inside the field, the old bit outside it (R154). -/
theorem fieldSet_getLsbD {raw w : Word} {f : RegField M} {v i : Nat} (hf : f.off + f.width ≤ 32)
    (h : fieldSet raw f v = some w) (hi : i < 32) :
    w.getLsbD i = if f.off ≤ i ∧ i < f.off + f.width then v.testBit (i - f.off) else raw.getLsbD i := by
  have hv : v < 2 ^ f.width := by
    by_contra hWide
    rw [fieldSet_of_ge raw (Nat.not_lt.mp hWide)] at h
    cases h
  rw [fieldSet_of_lt raw hv] at h
  obtain rfl := Option.some.inj h
  rw [BitVec.getLsbD_or, BitVec.getLsbD_and, BitVec.getLsbD_not, fieldMask_getLsbD f hf]
  by_cases hIn : f.off ≤ i ∧ i < f.off + f.width
  · rw [if_pos hIn, shiftedValue_getLsbD v f.off hi]
    simp [hIn]
  · rw [if_neg hIn, shiftedValue_getLsbD_outside hv hIn, ← Bool.decide_and]
    simp [hIn, hi]

/-- Setting a field to the value it holds returns the word (R154). -/
theorem fieldSet_fieldGet (raw : Word) {f : RegField M} (hf : f.off + f.width ≤ 32) :
    fieldSet raw f (fieldGet raw f).toNat = some raw := by
  have hSet := fieldSet_of_lt raw (fieldGet_toNat_lt raw f (by omega))
  rw [hSet]
  refine congrArg some (BitVec.eq_of_getLsbD_eq fun i hi => ?_)
  rw [fieldSet_getLsbD hf hSet hi]
  split
  · rw [← BitVec.getLsbD, fieldGet_getLsbD raw f (by omega), show f.off + (i - f.off) = i by omega]
    simp
    omega
  · rfl

/-- Settles O41. -/
theorem fieldSetReplacesOnlyItsField : Obligations.FieldSetReplacesOnlyItsField := by
  intro M f raw v hf
  refine ⟨fieldSet_of_ge raw, fun hv => ?_, fieldSet_fieldGet raw hf⟩
  have hSet := fieldSet_of_lt raw hv
  refine ⟨_, hSet, fieldGet_of_fieldSet hf hv hSet, fun i hOutside => ?_⟩
  by_cases hi : i < 32
  · rw [fieldSet_getLsbD hf hSet hi, if_neg (by omega)]
  · rw [BitVec.getLsbD_of_ge _ _ (by omega), BitVec.getLsbD_of_ge _ _ (by omega)]

/-! ## Modify -/

/-- Two FieldSets of fields that share no bit give the same word in either order, or are both rejected (R158). -/
theorem fieldSet_comm {f g : RegField M} (hf : f.off + f.width ≤ 32) (hg : g.off + g.width ≤ 32)
    (hApart : f.overlap g = false) (raw : Word) (v u : Nat) :
    (fieldSet raw f v).bind (fieldSet · g u) = (fieldSet raw g u).bind (fieldSet · f v) := by
  by_cases hv : v < 2 ^ f.width
  · by_cases hu : u < 2 ^ g.width
    · have hSetF := fun raw => fieldSet_of_lt raw hv
      have hSetG := fun raw => fieldSet_of_lt raw hu
      rw [hSetF raw, hSetG raw, Option.bind_some, Option.bind_some, hSetF, hSetG]
      refine congrArg some (BitVec.eq_of_getLsbD_eq fun i hi => ?_)
      rw [fieldSet_getLsbD hg (hSetG _) hi, fieldSet_getLsbD hf (hSetF _) hi, fieldSet_getLsbD hf (hSetF _) hi,
        fieldSet_getLsbD hg (hSetG _) hi]
      simp only [RegField.overlap, Bool.and_eq_false_iff, decide_eq_false_iff_not] at hApart
      by_cases hInF : f.off ≤ i ∧ i < f.off + f.width
      · have hNotInG : ¬ (g.off ≤ i ∧ i < g.off + g.width) := by omega
        simp only [if_pos hInF, if_neg hNotInG]
      · simp only [if_neg hInF]
    · have hNone := fun raw => fieldSet_of_ge raw (Nat.not_lt.mp hu)
      simp [hNone]
  · have hNone := fun raw => fieldSet_of_ge raw (Nat.not_lt.mp hv)
    simp [hNone]

/-- Modify is the first FieldSet, then the Modify of the rest (R158). -/
theorem modifyWord_cons (raw : Word) (p : RegField M × Nat) (ps : List (RegField M × Nat)) :
    modifyWord raw (p :: ps) = (fieldSet raw p.1 p.2).bind (modifyWord · ps) := by
  rw [modifyWord]
  cases fieldSet raw p.1 p.2 <;> rfl

/-- Modify of two orders of one list of fields that share no bit is the same (R158). -/
theorem modifyWord_perm {ps qs : List (RegField M × Nat)} (h : ps.Perm qs) (hRange : ∀ p ∈ ps, p.1.off + p.1.width ≤ 32)
    (hApart : (ps.map (·.1)).Pairwise fun f g => f.overlap g = false) (raw : Word) :
    modifyWord raw ps = modifyWord raw qs := by
  induction h generalizing raw with
  | nil => rfl
  | cons p _ ih =>
    rw [List.forall_mem_cons] at hRange
    rw [List.map_cons, List.pairwise_cons] at hApart
    rw [modifyWord_cons, modifyWord_cons]
    exact congrArg _ (funext (ih hRange.2 hApart.2))
  | swap p q ps =>
    simp only [List.forall_mem_cons] at hRange
    simp only [List.map_cons, List.pairwise_cons, List.forall_mem_cons] at hApart
    obtain ⟨hq, hp, -⟩ := hRange
    obtain ⟨⟨hqp, -⟩, -⟩ := hApart
    simp only [modifyWord_cons, ← Option.bind_assoc]
    rw [fieldSet_comm hq hp hqp]
  | trans h₁ _ ih₁ ih₂ =>
    have hRange₂ := fun p hp => hRange p (h₁.mem_iff.mpr hp)
    have hApart₂ := ((h₁.map _).pairwise_iff fun hfg => (overlap_fields_comm ..).trans hfg).mp hApart
    exact (ih₁ hRange hApart raw).trans (ih₂ hRange₂ hApart₂ raw)

/-- Settles O45. -/
theorem modifyOrderDoesNotMatter : Obligations.ModifyOrderDoesNotMatter :=
  fun _ raw _ _ h hRange hApart => modifyWord_perm h hRange (disjoint_iff_pairwise.mp hApart) raw

end Sys2Proof.Machine
end

section
/-! PROOFS. The poll of a further DOE, on its own registers and the shared vault, secret store and clock (R224). -/

namespace Sys2Proof.Machine

/-! ## The poll of a further DOE -/

/-- A command's work leaves all but the vault, the secret store and the mark (R179 to R182, R186). -/
theorem perform_frame (c : Cmd) (dest : Nat) (s : State) : perform c dest s = { s with
    kv := (perform c dest s).kv, uds := (perform c dest s).uds, fe := (perform c dest s).fe
    doekey := (perform c dest s).doekey, fatal := (perform c dest s).fatal } := by
  have hDeliver : ∀ slot, deliver s dest slot = { s with
      kv := (deliver s dest slot).kv, uds := (deliver s dest slot).uds, fe := (deliver s dest slot).fe
      doekey := (deliver s dest slot).doekey, fatal := (deliver s dest slot).fatal } := by
    intro slot
    rcases deliver_cases s dest slot with ⟨b, -, -, e⟩ | ⟨-, -, e⟩ | ⟨-, e⟩ <;> rw [e]
  cases c with
  | idle => rfl
  | clearSecrets => rfl
  | deobfuscateUds => exact hDeliver _
  | deobfuscateFe => exact hDeliver _

/-- Completing a fire leaves all but CONTROL (R183). -/
theorem completeFire_frame (s : State) : completeFire s = { s with control := (completeFire s).control } := by
  unfold completeFire
  split <;> rfl

/-- A DOE's poll leaves the time, the IV, the further DOEs, the configuration and the model's own fields (R41, R177). -/
theorem doePoll_frame (s : State) : doePoll s = { s with
    control := (doePoll s).control, pending := (doePoll s).pending, kv := (doePoll s).kv, uds := (doePoll s).uds
    fe := (doePoll s).fe, doekey := (doePoll s).doekey, fatal := (doePoll s).fatal } := by
  rcases doePoll_cases s with ⟨e, -⟩ | ⟨a, -, -, e⟩ <;> rw [e]
  rw [fire_eq, completeFire_frame, perform_frame]

/-- A fire of DEOBFUSCATE_FE into a slot of the vault, where the cipher does not fail (R178, R180, R183). -/
theorem fire_fe {s : State} {d : BitVec 3} {f : Bool} {r : BitVec 26} (hl : s.fatal = none)
    (hControl : s.control = encodeControl .deobfuscateFe d f r) (hDest : d.toNat < s.kv.length)
    (hCipher : (⟨s.doekey, s.iv, s.fe.toList⟩ : CipherCall) ∉ s.cfg.cipherFailures) :
    fire s = { s with
      kv := s.kv.set d.toNat (Config.aes256CbcPlaintext 4 s.doekey s.iv s.fe), control := s.control ||| 0x20 } := by
  rw [← completeFire_deliver_some hl hDest, ← feSlot_some hCipher, fire_eq, hControl, encodeControl_cmd,
    cmdOfBits_cmdBits, controlDest_encodeControl]
  rfl

/-- FLOW_DONE set in an encoded word (R90, R183). -/
theorem encodeControl_or_flowDone (c : Cmd) (d : BitVec 3) (f : Bool) (r : BitVec 26) :
    encodeControl c d f r ||| 0x20 = encodeControl c d true r := by
  apply BitVec.eq_of_getLsbD_eq
  intro i hi
  rw [or_flowDone_getLsbD, encodeControl_getLsbD, encodeControl_getLsbD]
  rcases Nat.lt_trichotomy i 5 with h5 | rfl | h5
  · simp [h5, show i ≠ 5 by omega]
  · simp
  · simp [show i ≠ 5 by omega, show ¬ i < 6 by omega]

/-- A fan-out over one poller is its poll (R101). -/
theorem pollAll_singleton (p : Poller) (s : State) : pollAll [p] s = poll p s := by
  cases h : (poll p s).fatal with
  | none => rw [pollAll_cons_live [] h, pollAll_nil]
  | some c => rw [pollAll_cons_stuck [] h]

/-- Settles O60: the poll by the frame of the DOE's poll, the ADVANCE by the fire on DOE j's registers. -/
theorem furtherDoePollsShareTheVault : Obligations.FurtherDoePollsShareTheVault := by
  constructor
  · intro s u j d hd hu
    have hFrame := doePoll_frame (s.withDoe d)
    rw [show doePoll (s.withDoe d) = u from hu] at hFrame
    rw [show u.iv = d.iv from congrArg State.iv hFrame]
    exact atFurther_some hd (hu.trans hFrame)
  · intro s n j a d dest hl hOrder hd hPending hDue hControl hDest hCipher
    have hFire := fire_fe (s := { s with
      now := s.now + n, iv := d.iv, control := d.control, pending := none }) hl hControl hDest hCipher
    have hPoll := (doePoll_due (s := ({ s with now := s.now + n } : State).withDoe d) hPending hDue).trans hFire
    have hFurther := atFurther_some (s := { s with now := s.now + n }) hd hPoll
    have hAll : advanced n s = atFurther j doePoll { s with now := s.now + n } := by
      rw [advanced, hOrder, pollAll_singleton]
      rfl
    rw [exec_advance_done hl (hAll.trans hFurther) hl, ← encodeControl_or_flowDone _ _ false, ← hControl]

end Sys2Proof.Machine
end

section
/-! PROOFS. The time a command takes: FLOW_DONE under any sequence of ADVANCEs (R108, R252), and the rounds of WAITDONE
(R96, R247). -/

namespace Sys2Proof.Machine

/-! ## Requests that the driver issues one at a time -/

/-- A request issued to a live machine runs its operation (R91, R133). -/
theorem issue_encodeOperation {s : State} (hl : s.fatal = none) (op : Operation) :
    issue (encodeOperation op) s = execOperation op { s with requests := [] } := by
  cases hRequest : encodeOperation op with
  | fetch addr => cases op <;> cases hRequest
  | transaction key payload =>
    rw [issue, step_of_requests (by exact hl) rfl, serve_of_parse (parse_eq_operation_iff.mpr hRequest)]

/-- The script's `ADV n` runs ADVANCE n (R95). -/
theorem issue_scriptAdvance {s : State} (hl : s.fatal = none) (n : Nat) :
    issue (scriptAdvance n) s = exec (.advance n) { s with requests := [] } :=
  issue_encodeOperation hl _

/-- The script's `R4 CONTROL` runs READ.CONTROL (R95). -/
theorem issue_scriptReadControl {s : State} (hl : s.fatal = none) :
    issue (scriptRead s.cfg .word (controlAddr s.cfg)) s = exec .readControl { s with requests := [] } := by
  have hOff : controlAddr s.cfg - s.cfg.doeBase = controlOffset := by
    rw [controlAddr, addrOf, BitVec.add_comm, BitVec.add_sub_cancel]
  rw [scriptRead, hOff]
  exact issue_encodeOperation hl _

/-- One round of WAITDONE whose ADVANCE ends live: the driver reads the CONTROL that the ADVANCE left (R96). -/
theorem waitRound_eq {s t : State} {k : Nat} (hl : s.fatal = none)
    (h : exec (.advance k) { s with requests := [] } = .next t) (hLive : t.fatal = none) (hCfg : t.cfg = s.cfg)
    (hw : t.cfg.wf t.peripherals.length = true) :
    waitRound k s = .next { t with requests := [], response := some (.value t.control) } := by
  have hRead : issue (scriptRead s.cfg .word (controlAddr s.cfg)) t =
      .next { t with requests := [], response := some (.value t.control) } := by
    rw [← hCfg, issue_scriptReadControl hLive]
    exact exec_readControl_live (by exact hw) (by exact hLive)
  simp only [waitRound, issueAll, issue_scriptAdvance hl, h, hRead]

/-! ## A command in flight -/

/-- A machine on which a command was accepted that fires at time `due`: before that the command is pending and FLOW_DONE is 0,
from then on nothing is pending and FLOW_DONE is 1. The platform is one where no fire is fatal (R108, R186, R252). -/
structure InFlight (due : Nat) (s : State) : Prop where
  cfgWf  : s.cfg.wf s.peripherals.length = true
  live   : s.fatal = none
  order  : s.cfg.pollOrder = [.doe]
  cipher : s.cfg.cipherFailures = []
  slots  : 8 ≤ s.kv.length
  phase  : (s.now < due ∧ s.pending = some due ∧ flowDone s.control = false) ∨
    (due ≤ s.now ∧ s.pending = none ∧ flowDone s.control = true)

/-- FLOW_DONE says whether the fire time is reached. -/
theorem InFlight.flowDone_eq {due : Nat} {s : State} (h : InFlight due s) : flowDone s.control = decide (due ≤ s.now) := by
  rcases h.phase with ⟨hBefore, -, hDone⟩ | ⟨hAfter, -, hDone⟩ <;> rw [hDone]
  · simp [hBefore]
  · simp [hAfter]

/-- The requests and the response play no part. -/
theorem InFlight.with_driver {due : Nat} {s : State} (h : InFlight due s) (requests : List Request)
    (response : Option Response) : InFlight due { s with requests := requests, response := response } :=
  ⟨h.cfgWf, h.live, h.order, h.cipher, h.slots, h.phase⟩

/-- The accept of a command puts it in flight, DOE_LATENCY ahead (R174). -/
theorem inFlight_of_accept {s t : State} {v : Word} (hInv : MachineInv s) (hAlone : DoeAlone s.cfg)
    (hSlots : 8 ≤ s.kv.length) (hv : v.extractLsb' 0 2 ≠ 0) (h : exec (.writeControl v) s = .next t) :
    t.now = s.now ∧ InFlight (s.now + 1000) t := by
  obtain ⟨-, hOrder, hCipher⟩ := hAlone
  obtain ⟨hl, -⟩ := exec_writeControl_next hInv.cfgWf h
  obtain rfl := exec_writeControl_accept hInv.cfgWf hv h
  have hDone : flowDone (v &&& 0xFFFFFFDF) = false := by rw [← clearFlowDone_eq, flowDone_clear]
  exact ⟨rfl, hInv.cfgWf, hl, hOrder, hCipher, hSlots, .inl ⟨by simp only; omega, rfl, hDone⟩⟩

/-- No cause of a fatal mark is allowed where the vault has a slot for every DEST and the cipher does not fail (R186). -/
theorem not_causeAllowed {s : State} (hSlots : 8 ≤ s.kv.length) (hCipher : s.cfg.cipherFailures = []) (c : FatalInfo) :
    ¬ CauseAllowed s c := by
  cases c with
  | vaultWrite d => rintro ⟨hPast, hd⟩; omega
  | cipherFail => exact fun h => h hCipher

/-- ADVANCE keeps a command in flight and moves the time (R101, R108). -/
theorem InFlight.advance {due : Nat} {s : State} (h : InFlight due s) (n : Nat) :
    ∃ t, exec (.advance n) s = .next t ∧ InFlight due t ∧ t.now = s.now + n ∧ t.cfg = s.cfg := by
  have hExec := exec_advance_live h.live n
  have hPolled := execAdvance_polled hExec
  have hLive : (advanced n s).fatal = none := by
    by_contra hFatal
    obtain ⟨c, hc⟩ := Option.ne_none_iff_exists'.mp hFatal
    obtain ⟨hCause, -⟩ := pollAll_stuck s.cfg.pollOrder _ (by exact h.live) hc
    exact not_causeAllowed (by exact h.slots) (by exact h.cipher) c hCause
  refine ⟨_, hExec, ⟨?_, hLive, ?_, ?_, ?_, ?_⟩, hPolled.now, hPolled.cfg⟩
  · rw [hPolled.cfg, hPolled.peripherals]
    exact h.cfgWf
  · rw [hPolled.cfg]
    exact h.order
  · rw [hPolled.cfg]
    exact h.cipher
  · rw [hPolled.kv]
    exact h.slots
  · rw [hPolled.now]
    rcases h.phase with ⟨hBefore, hPending, hDone⟩ | ⟨hAfter, hPending, hDone⟩
    · by_cases hReach : due ≤ s.now + n
      · obtain ⟨hNone, hControl⟩ := exec_advance_due h.order hPending hReach hExec hLive
        exact .inr ⟨hReach, hNone, by rw [hControl, flowDone_or]⟩
      · have hQuiet : advanced n s = { s with now := s.now + n } := advanced_quiet h.order (by simp [hPending]; omega)
        rw [hQuiet]
        exact .inl ⟨Nat.not_le.mp hReach, hPending, hDone⟩
    · have hQuiet : advanced n s = { s with now := s.now + n } := advanced_quiet h.order (by simp [hPending])
      rw [hQuiet]
      exact .inr ⟨hAfter.trans (Nat.le_add_right ..), hPending, hDone⟩

/-- ADVANCEs of any sizes keep a command in flight and move the time by their sum (R108, R252). -/
theorem InFlight.advanceAll {due : Nat} : ∀ (ns : List Nat) {s : State}, InFlight due s →
    ∃ u, advanceAll ns s = .next u ∧ InFlight due u ∧ u.now = s.now + ns.sum
  | [], s, h => ⟨s, rfl, h, rfl⟩
  | n :: ns, s, h => by
    obtain ⟨t, hExec, hFlight, hNow, -⟩ := (h.with_driver [] s.response).advance n
    obtain ⟨u, hAll, hEnd, hSum⟩ := hFlight.advanceAll ns
    refine ⟨u, ?_, hEnd, ?_⟩
    · rw [Machine.advanceAll, List.map_cons, issueAll, issue_scriptAdvance h.live, hExec]
      exact hAll
    · rw [hSum, hNow, List.sum_cons, Nat.add_assoc]

/-- Settles O57. -/
theorem commandCompletesAfterLatency : Obligations.CommandCompletesAfterLatency := by
  intro s t v ns hInv hAlone hSlots _ hv hAccept
  obtain ⟨hNow, hFlight⟩ := inFlight_of_accept hInv hAlone hSlots hv hAccept
  obtain ⟨u, hAll, hEnd, hSum⟩ := hFlight.advanceAll ns
  rw [hNow] at hSum
  refine ⟨u, hAll, hSum, ?_⟩
  rw [hEnd.flowDone_eq, hSum, decide_eq_decide]
  omega

/-! ## WAITDONE -/

/-- One round of WAITDONE on a command in flight sees whether its fire time is reached (R96). -/
theorem InFlight.waitRound {due : Nat} {s : State} (h : InFlight due s) (k : Nat) :
    ∃ u, waitRound k s = .next u ∧ InFlight due u ∧ u.now = s.now + k ∧ seesDone u = decide (due ≤ u.now) := by
  obtain ⟨t, hExec, hFlight, hNow, hCfg⟩ := (h.with_driver [] s.response).advance k
  exact ⟨_, waitRound_eq h.live hExec hFlight.live hCfg hFlight.cfgWf, hFlight.with_driver .., hNow, hFlight.flowDone_eq⟩

/-- The last round: k ticks are enough for the r that are left. -/
theorem rounds_last {r k : Nat} (hr : 1 ≤ r) (h : r ≤ k) : (r + k - 1) / k = 1 :=
  Nat.div_eq_of_lt_le (by omega) (by omega)

/-- A round before the last takes k of the r ticks that are left. -/
theorem rounds_more {r k : Nat} (hk : 1 ≤ k) (h : k < r) : (r + k - 1) / k = (r - k + k - 1) / k + 1 := by
  rw [← Nat.add_div_right _ hk]
  congr 1
  omega

/-- WAITDONE ends with the first round that reaches the fire time (R247). -/
theorem InFlight.waitDone {due k : Nat} (hk : 1 ≤ k) : ∀ (fuel : Nat) {s : State}, InFlight due s → s.now < due →
    (due - s.now + k - 1) / k ≤ fuel → ∃ u, waitDone k fuel s = some ((due - s.now + k - 1) / k, u)
  | 0, s, _, hBefore, hFuel => by
    have hPos : 0 < (due - s.now + k - 1) / k := Nat.div_pos (by omega) hk
    omega
  | fuel + 1, s, h, hBefore, hFuel => by
    obtain ⟨u, hRound, hFlight, hNow, hSees⟩ := h.waitRound k
    simp only [Machine.waitDone, hRound, hSees]
    by_cases hReach : due ≤ u.now
    · rw [rounds_last (by omega) (by omega)]
      exact ⟨u, by simp [hReach]⟩
    · have hMore := rounds_more (r := due - s.now) hk (by omega)
      rw [show due - s.now - k = due - u.now by omega] at hMore
      obtain ⟨x, hRest⟩ := hFlight.waitDone hk fuel (Nat.not_le.mp hReach) (by omega)
      exact ⟨x, by simp [hReach, hRest, hMore]⟩

/-- A machine with nothing pending and FLOW_DONE = 0, the DOE alone polled (R247). -/
structure NothingPending (s : State) : Prop where
  cfgWf   : s.cfg.wf s.peripherals.length = true
  order   : s.cfg.pollOrder = [.doe]
  pending : s.pending = none
  notDone : flowDone s.control = false

/-- On such a machine a round of WAITDONE changes only the time and sees FLOW_DONE = 0 (R107). -/
theorem NothingPending.waitRound {s : State} (h : NothingPending s) (hl : s.fatal = none) (k : Nat) :
    ∃ u, waitRound k s = .next u ∧ NothingPending u ∧ seesDone u = false := by
  have hExec := advanceBeforeFireChangesOnlyTime k { s with requests := [] } hl h.order (by simp [h.pending])
  exact ⟨_, waitRound_eq hl hExec hl rfl h.cfgWf, ⟨h.cfgWf, h.order, h.pending, h.notDone⟩, h.notDone⟩

/-- On such a machine WAITDONE ends after no number of rounds (R247). -/
theorem NothingPending.waitDone (k : Nat) : ∀ (fuel : Nat) {s : State}, NothingPending s → waitDone k fuel s = none
  | 0, _, _ => rfl
  | fuel + 1, s, h => by
    cases hFatal : s.fatal with
    | some c =>
      have hStuck : issue (scriptAdvance k) s = .fault (.stuckFatal c) := ifLive_stuck (by exact hFatal) _
      simp only [Machine.waitDone, Machine.waitRound, issueAll, hStuck]
    | none =>
      obtain ⟨u, hRound, hNext, hSees⟩ := h.waitRound hFatal k
      simp only [Machine.waitDone, hRound, hSees, hNext.waitDone k fuel, Option.map_none]
      rfl

/-- Settles O58. -/
theorem waitDoneRoundsAreBounded : Obligations.WaitDoneRoundsAreBounded := by
  refine ⟨fun s t v k fuel hInv hAlone hSlots _ hv hAccept hk hFuel => ?_, fun s k fuel hInv hAlone hPending hDone => ?_⟩
  · obtain ⟨hNow, hFlight⟩ := inFlight_of_accept hInv hAlone hSlots hv hAccept
    have hLeft : s.now + 1000 - t.now = 1000 := by omega
    have hEnd := hFlight.waitDone hk fuel (by omega)
    rw [hLeft] at hEnd
    exact hEnd hFuel
  · obtain ⟨-, hOrder, -⟩ := hAlone
    exact NothingPending.waitDone k fuel ⟨hInv.cfgWf, hOrder, hPending, hDone⟩

end Sys2Proof.Machine
end
